-- ==== Sys2Proof/Word.lean ====
section
/-! DEFINITION. The widths of the spec (00_scope.md R7, 10_state.md section 1): a byte of a byte space, a 16-bit CRC
value, an 11-bit offset or count, a 32-bit command or response word. -/

namespace Sys2Proof

/-- A byte of a byte space, a fragment or a payload: 8 bits (20_memory.md R30). -/
abbrev Byte := BitVec 8

/-- A CRC value or an entry of `TABLE`: 16 bits (10_state.md R12, R13). -/
abbrev HalfWord := BitVec 16

/-- An offset, a count or a length register: 11 bits, 0..2047 (30_encoding.md R50). -/
abbrev Offset := BitVec 11

/-- A command word or a response word: a 32-bit VALUE, without a byte order (20_memory.md R37). -/
abbrev Word := BitVec 32

end Sys2Proof
end

