-- ==== Sys2Proof/Config.lean ====
section
/-! DEFINITION. The implementation parameter the spec leaves open (00_scope.md R5): `FRAG_MAX`. A machine carries it in
its state as plain data that no operation writes, so a claim over every state is a claim over every `FRAG_MAX`. -/

namespace Sys2Proof

/-- The fixed configuration of one block. -/
structure Config where
  /-- `FRAG_MAX`: the longest fragment the fragment port carries, and the capacity of `MSG` (00_scope.md R5). -/
  fragMax : Nat
deriving DecidableEq, Repr

/-- "integer, 1 ≤ `FRAG_MAX` ≤ 1029" (00_scope.md R5). -/
abbrev Config.Legal (c : Config) : Prop := 1 ≤ c.fragMax ∧ c.fragMax ≤ 1029

/-- DESIGN CHOICE (log entry 1), unsafe: the "suggested default 20" of 00_scope.md R5, which `State.reset` carries. A
claim that rests on the number 20 is a claim about that implementation only. -/
def Config.suggested : Config := ⟨20⟩

end Sys2Proof
end

