-- ==== Sys2Proof/Syntax.lean ====
section
/-! DEFINITION. The operations of the block: one constructor per row of spec/opcode_table.json, and the two kinds of
packet in which an operation is presented (00_scope.md R3). -/

namespace Sys2Proof

/-- The mode `m` of a block (00_scope.md R5): bit 0 is short (128 payload bytes), bit 1 is long (1024). -/
inductive Mode
  | short
  | long
deriving DecidableEq, Repr

/-- The seventeen operations (30_encoding.md R52, R53). All but `raFrag` are commands of the host port. -/
inductive Instr
  /-- `SYS.STAT` (43_system.md R130). -/
  | sysStat
  /-- `SYS.CFG cfg` (43_system.md R131): bit 0 of `cfg` is `strict`, the only bit that may be 1. -/
  | sysCfg (strict : Bool)
  /-- `CRC.INIT` (40_crc.md R82). -/
  | crcInit
  /-- `CRC.UPD b` (40_crc.md R83). -/
  | crcUpd (b : Byte)
  /-- `CRC.GET` (40_crc.md R84). -/
  | crcGet
  /-- `RA.ARM` (41_reassembler.md R91). -/
  | raArm
  /-- `RA.POLL m` (41_reassembler.md R92). -/
  | raPoll (m : Mode)
  /-- `RA.STAT` (41_reassembler.md R93). -/
  | raStat
  /-- `RA.MSGRD a` (41_reassembler.md R94). -/
  | raMsgrd (a : Offset)
  /-- `RA.MSGCLR` (41_reassembler.md R95). -/
  | raMsgclr
  /-- `RA.RXRD a` (41_reassembler.md R96). -/
  | raRxrd (a : Offset)
  /-- `BC.VALIDATE m` (42_codec.md R110). -/
  | bcValidate (m : Mode)
  /-- `BC.SEQCHK s` (42_codec.md R111). -/
  | bcSeqchk (s : Byte)
  /-- `BC.SEQINIT` (42_codec.md R112). -/
  | bcSeqinit
  /-- `BC.BUILD m, s, n` with its `n` payload bytes `src` (42_codec.md R113); `n` is `src.length`. -/
  | bcBuild (m : Mode) (s : Byte) (src : List Byte)
  /-- `BC.TXRD a` (42_codec.md R114). -/
  | bcTxrd (a : Offset)
  /-- `RA.FRAG f`, the one operation of the fragment port (41_reassembler.md R90). -/
  | raFrag (f : List Byte)
deriving DecidableEq, Repr

/-- What the host presents: one command word and the payload bytes that come with it (30_encoding.md R50, R55). -/
structure HostCommand where
  word : Word
  payload : List Byte
deriving DecidableEq, Repr

/-- What a port carries: a host command, or a fragment, which is its bytes and nothing else (30_encoding.md R59). -/
inductive Packet
  | command (c : HostCommand)
  | fragment (f : List Byte)
deriving DecidableEq, Repr

end Sys2Proof
end

