-- ==== Sys2Proof/WellFormed.lean ====
section
/-! DEFINITION. Which terms of `Instr` an encoding exists for. Only two operands can be out of range as terms: the
payload of `BC.BUILD`, whose length has 11 bits, and a fragment, which the port bounds by `FRAG_MAX`. -/

namespace Sys2Proof

/-- An operation that a block with configuration `c` can be presented with. `BC.BUILD`: `n` is an 11-bit field, 0..2047
(30_encoding.md R50); `n > P(m)` is well formed and faults (R54). `RA.FRAG`: at most `FRAG_MAX` bytes (R59). -/
def WellFormed (c : Config) : Instr → Bool
  | .sysStat => true
  | .sysCfg _ => true
  | .crcInit => true
  | .crcUpd _ => true
  | .crcGet => true
  | .raArm => true
  | .raPoll _ => true
  | .raStat => true
  | .raMsgrd _ => true
  | .raMsgclr => true
  | .raRxrd _ => true
  | .bcValidate _ => true
  | .bcSeqchk _ => true
  | .bcSeqinit => true
  | .bcBuild _ _ src => decide (src.length < 2048)
  | .bcTxrd _ => true
  | .raFrag f => decide (f.length ≤ c.fragMax)

end Sys2Proof
end

