-- ==== Sys2Proof/Decode.lean ====
section
/-! DEFINITION. Decoding a packet to an operation, total on every packet and rejecting by name, and encoding an
operation as its packet (30_encoding.md R50 to R55, R59). -/

namespace Sys2Proof

/-! ## The fields of a command word (30_encoding.md R50, R51) -/

/-- `op`, bits 31:24. -/
def opField (w : Word) : Byte := w.extractLsb' 24 8

/-- `m`, bit 23. -/
def modeField (w : Word) : BitVec 1 := w.extractLsb' 23 1

/-- `z`, bits 22:19, reserved, must be 0. -/
def reservedField (w : Word) : BitVec 4 := w.extractLsb' 19 4

/-- `n` (a count) or `a` (an offset), bits 18:8. -/
def countField (w : Word) : Offset := w.extractLsb' 8 11

/-- `b`, `s` or `cfg`, bits 7:0. -/
def byteField (w : Word) : Byte := w.extractLsb' 0 8

/-- A command word from its fields, with `z = 0`. -/
def assemble (op : Byte) (m : BitVec 1) (n : Offset) (b : Byte) : Word :=
  op ++ m ++ (0 : BitVec 4) ++ n ++ b

/-- The mode a bit stands for (00_scope.md R5). -/
def modeOfBit (b : BitVec 1) : Mode := if b = 1 then .long else .short

/-- The bit that stands for a mode (00_scope.md R5). -/
def modeBit : Mode → BitVec 1
  | .short => 0
  | .long => 1

/-! ## The opcode map (30_encoding.md R52, R53) -/

/-- The sixteen host commands of 30_encoding.md R52, by their names in that table. -/
inductive Op
  | sysStat | sysCfg
  | crcInit | crcUpd | crcGet
  | raArm | raPoll | raStat | raMsgrd | raMsgclr | raRxrd
  | bcValidate | bcSeqchk | bcSeqinit | bcBuild | bcTxrd
deriving DecidableEq, Repr

/-- The `op` column of 30_encoding.md R52. -/
def opCode : Op → Byte
  | .sysStat => 0x01
  | .sysCfg => 0x02
  | .crcInit => 0x10
  | .crcUpd => 0x11
  | .crcGet => 0x12
  | .raArm => 0x20
  | .raPoll => 0x21
  | .raStat => 0x22
  | .raMsgrd => 0x23
  | .raMsgclr => 0x24
  | .raRxrd => 0x25
  | .bcValidate => 0x30
  | .bcSeqchk => 0x31
  | .bcSeqinit => 0x32
  | .bcBuild => 0x33
  | .bcTxrd => 0x34

/-- Every row of 30_encoding.md R52, in the table's order. -/
def allOps : List Op :=
  [.sysStat, .sysCfg, .crcInit, .crcUpd, .crcGet, .raArm, .raPoll, .raStat, .raMsgrd, .raMsgclr, .raRxrd,
   .bcValidate, .bcSeqchk, .bcSeqinit, .bcBuild, .bcTxrd]

/-- "Decoding is by `op` alone" (30_encoding.md R53): the row with this opcode, if there is one. -/
def opOfCode (code : Byte) : Option Op := allOps.find? fun o => opCode o == code

/-- The `m` column of 30_encoding.md R53: which commands have a mode. -/
def usesMode : Op → Bool
  | .raPoll => true
  | .bcValidate => true
  | .bcBuild => true
  | _ => false

/-- The `n` / `a` column of 30_encoding.md R53: which commands have a count or an offset. -/
def usesCount : Op → Bool
  | .raMsgrd => true
  | .raRxrd => true
  | .bcBuild => true
  | .bcTxrd => true
  | _ => false

/-- The `b` / `s` / `cfg` column of 30_encoding.md R53: the bits of the byte field that are an operand. -/
def byteMask : Op → Byte
  | .sysCfg => 0x01
  | .crcUpd => 0xFF
  | .bcSeqchk => 0xFF
  | .bcBuild => 0xFF
  | _ => 0x00

/-- How many payload bytes belong to a command, learned from its first word alone (30_encoding.md R55). -/
def payloadCount (o : Op) (w : Word) : Nat :=
  match o with
  | .bcBuild => (countField w).toNat
  | _ => 0

/-- A field that 30_encoding.md R53 marks 0 for this command is not 0 (R54 (c)). -/
def hasStrayOperand (o : Op) (w : Word) : Bool :=
  (!usesMode o && modeField w != 0) || (!usesCount o && countField w != 0) || (byteField w &&& ~~~ byteMask o) != 0

/-- Why a packet is no operation. -/
inductive DecodeError
  /-- The `op` is not one of the sixteen (30_encoding.md R54 (a)): an illegal command word. -/
  | unknownOpcode
  /-- `z` is not 0 (30_encoding.md R54 (b)): an illegal command word. -/
  | reservedBits
  /-- A field marked 0 for the command is not 0 (30_encoding.md R54 (c)): an illegal command word. -/
  | strayOperand
  /-- A legal word with a payload of another length than the word says: the port cannot carry it (30_encoding.md
  R55: "exactly `n` bytes"). -/
  | payloadLength
  /-- A fragment longer than `FRAG_MAX`: "cannot be presented" (30_encoding.md R59). -/
  | fragmentTooLong
deriving DecidableEq, Repr

/-- The rejections that make a command word illegal in the sense of 30_encoding.md R54. -/
def DecodeError.isIllegalWord : DecodeError → Bool
  | .unknownOpcode => true
  | .reservedBits => true
  | .strayOperand => true
  | .payloadLength => false
  | .fragmentTooLong => false

/-- The operation a row stands for, with its operands taken directly from the fields (30_encoding.md R51). -/
def instrOf (o : Op) (m : Mode) (n : Offset) (b : Byte) (payload : List Byte) : Instr :=
  match o with
  | .sysStat => .sysStat
  | .sysCfg => .sysCfg (b.getLsbD 0)
  | .crcInit => .crcInit
  | .crcUpd => .crcUpd b
  | .crcGet => .crcGet
  | .raArm => .raArm
  | .raPoll => .raPoll m
  | .raStat => .raStat
  | .raMsgrd => .raMsgrd n
  | .raMsgclr => .raMsgclr
  | .raRxrd => .raRxrd n
  | .bcValidate => .bcValidate m
  | .bcSeqchk => .bcSeqchk b
  | .bcSeqinit => .bcSeqinit
  | .bcBuild => .bcBuild m b payload
  | .bcTxrd => .bcTxrd n

/-- Decodes a command of the host port (30_encoding.md R53, R54, R55). -/
def decodeCommand (c : HostCommand) : Except DecodeError Instr :=
  match opOfCode (opField c.word) with
  | none => .error .unknownOpcode
  | some o =>
    if reservedField c.word ≠ 0 then .error .reservedBits
    else if hasStrayOperand o c.word then .error .strayOperand
    else if c.payload.length ≠ payloadCount o c.word then .error .payloadLength
    else .ok (instrOf o (modeOfBit (modeField c.word)) (countField c.word) (byteField c.word) c.payload)

/-- Decodes a packet of the fragment port: the fragment itself (30_encoding.md R59). -/
def decodeFragment (cfg : Config) (f : List Byte) : Except DecodeError Instr :=
  if f.length ≤ cfg.fragMax then .ok (.raFrag f) else .error .fragmentTooLong

/-- Decodes a packet of either port. -/
def decode (cfg : Config) : Packet → Except DecodeError Instr
  | .command c => decodeCommand c
  | .fragment f => decodeFragment cfg f

/-! ## The encoder -/

/-- A command without payload bytes. -/
def plainCommand (o : Op) (m : BitVec 1) (n : Offset) (b : Byte) : Packet :=
  .command { word := assemble (opCode o) m n b, payload := [] }

/-- The packet that stands for an operation (30_encoding.md R53, R55, R59). -/
def encode : Instr → Packet
  | .sysStat => plainCommand .sysStat 0 0 0
  | .sysCfg strict => plainCommand .sysCfg 0 0 (if strict then 1 else 0)
  | .crcInit => plainCommand .crcInit 0 0 0
  | .crcUpd b => plainCommand .crcUpd 0 0 b
  | .crcGet => plainCommand .crcGet 0 0 0
  | .raArm => plainCommand .raArm 0 0 0
  | .raPoll m => plainCommand .raPoll (modeBit m) 0 0
  | .raStat => plainCommand .raStat 0 0 0
  | .raMsgrd a => plainCommand .raMsgrd 0 a 0
  | .raMsgclr => plainCommand .raMsgclr 0 0 0
  | .raRxrd a => plainCommand .raRxrd 0 a 0
  | .bcValidate m => plainCommand .bcValidate (modeBit m) 0 0
  | .bcSeqchk s => plainCommand .bcSeqchk 0 0 s
  | .bcSeqinit => plainCommand .bcSeqinit 0 0 0
  | .bcBuild m s src =>
    .command { word := assemble (opCode .bcBuild) (modeBit m) (BitVec.ofNat 11 src.length) s, payload := src }
  | .bcTxrd a => plainCommand .bcTxrd 0 a 0
  | .raFrag f => .fragment f

/-! ## Words numbered as spec/opcode_table.json numbers them -/

/-- The bytes of a packet whose bits are `w`, byte 0 the least significant. -/
def bytesOfNat : Nat → Nat → List Byte
  | 0, _ => []
  | k + 1, w => BitVec.ofNat 8 w :: bytesOfNat k (w / 256)

/-- The packet of a table word. A row of 32 bits is a host command: the word as a value (20_memory.md R37 gives it no
byte order), and the payload bytes it calls for, all 0. Any other whole number of bytes is a fragment, byte 0 first
(the row of `RA.FRAG` has 8 bits). -/
def packetOfTableWord (nbits w : Nat) : Packet :=
  if nbits = 32 then
    let word : Word := BitVec.ofNat 32 w
    let n := match opOfCode (opField word) with
      | none => 0
      | some o => payloadCount o word
    .command { word := word, payload := List.replicate n 0 }
  else .fragment (bytesOfNat (nbits / 8) w)

/-- The instruction the decoder reads from an instruction of the opcode table whose bits are `w`. -/
def decodeTableWord (nbits w : Nat) : Option Instr :=
  match decode Config.suggested (packetOfTableWord nbits w) with
  | .ok i => some i
  | .error _ => none

end Sys2Proof
end

