-- ==== Sys2Proof/Machine/Memory.lean ====
section
/-! DEFINITION. A byte space as a list of written cells in one canonical form, addresses strictly rising. An unlisted
address is unwritten and reads as no value (20_memory.md R33: "holds no value"), so no listed cell can equal what an
unlisted address reads as. -/

namespace Sys2Proof.Machine

/-- The written bytes of one byte space, each with its offset. -/
abbrev Memory := List Host.Cell

/-- The canonical form: offsets strictly rising (DESIGN CHOICE, log entry 11). -/
abbrev Memory.wf (m : Memory) : Prop := m.Pairwise fun x y => x.1 < y.1

/-- Exactly the offsets `0 .. n-1` are written. It implies `Memory.wf`. -/
abbrev Memory.Holds (m : Memory) (n : Nat) : Prop := m.map Prod.fst = List.range n

/-- The byte at offset `a`, or no value where `a` is unwritten. -/
def Memory.read (m : Memory) (a : Nat) : Option Byte :=
  match m with
  | [] => none
  | c :: m' => if c.1 = a then some c.2 else Memory.read m' a

/-- `MemRead` of 00_scope.md R7: the `n` bytes from offset `a` on, or no value where one of them is unwritten. -/
def Memory.readBytes (m : Memory) (a : Nat) : Nat → Option (List Byte)
  | 0 => some []
  | n + 1 =>
    match Memory.read m a, Memory.readBytes m (a + 1) n with
    | some b, some bs => some (b :: bs)
    | _, _ => none

/-- The cells of a byte string laid out from offset `a` on. -/
def cellsAt (a : Nat) : List Byte → Memory
  | [] => []
  | b :: bs => (a, b) :: cellsAt (a + 1) bs

/-- `MemWrite` of 00_scope.md R7: the byte string `bs` at offsets `a .. a + len(bs) - 1`. -/
def Memory.writeBytes (m : Memory) (a : Nat) (bs : List Byte) : Memory :=
  m.filter (fun c => c.1 < a) ++ cellsAt a bs ++ m.filter (fun c => a + bs.length ≤ c.1)

/-- Lowering a length register to `n` makes the bytes at and beyond `n` unwritten (20_memory.md R33). -/
def Memory.truncate (m : Memory) (n : Nat) : Memory := m.filter fun c => c.1 < n

end Sys2Proof.Machine
end

