-- ==== Sys2Proof/Machine/State.lean ====
section
/-! DEFINITION. The state of the block (10_state.md), the reasons a step can stop, and the state after reset
(10_state.md R24). All of it is plain data. -/

namespace Sys2Proof.Machine

/-- The writable byte spaces of 20_memory.md R30. -/
inductive Space
  | rxbuf
  | txbuf
  | msg
deriving DecidableEq, Repr

/-- The two ports of 00_scope.md R3. -/
inductive Port
  | host
  | fragment
deriving DecidableEq, Repr

/-- The three agents of 60_exceptions.md R150. -/
inductive Agent
  /-- Drives the host port. -/
  | host
  /-- Drives the fragment port. -/
  | transport
  /-- Asserts reset. -/
  | environment
deriving DecidableEq, Repr

/-- Why the MODEL stops. The six faults of 60_exceptions.md R140 are not here: they are latched in `sysFault`, and the
block goes on answering, so they are next states. -/
inductive Fault
  /-- Raised by a read of an offset that the length register calls written while no byte is held there. Safe: no state
  that satisfies `State.Inv` raises it (log entry 7). -/
  | noByte (space : Space) (offset : Nat)
  /-- Raised by a write that would leave its byte space (20_memory.md R30). Safe: no well-formed operation in a state
  that satisfies `State.Inv` raises it (log entry 7). -/
  | outsideSpace (space : Space) (last : Nat)
deriving DecidableEq, Repr

/-- Why an input has no meaning. -/
inductive Refusal
  /-- Raised by `exec` for an instruction not modelled yet. Safe. No arm raises it. -/
  | notModelled (mnemonic : String)
  /-- Raised by the fragment port for a fragment longer than `FRAG_MAX`, which "cannot be presented (the port cannot
  carry it)" (30_encoding.md R59). Safe (log entry 8). -/
  | fragmentTooLong (length : Nat)
  /-- Raised by the host port for a legal command word whose payload is not as long as the word says, which is no
  command (30_encoding.md R50, R55). Safe (log entry 8). -/
  | payloadLength (length : Nat)
deriving DecidableEq, Repr

/-- The whole state. The first thirteen fields are the table of 10_state.md R24, without `TABLE`, a constant. -/
structure State where
  /-- `CRC_ACC` (10_state.md R12). -/
  crcAcc : HalfWord
  /-- `RXBUF` (10_state.md R14). -/
  rxbuf : Memory
  /-- `RA_WOFF` (10_state.md R15). -/
  raWoff : Offset
  /-- `RA_COLL` (10_state.md R16). -/
  raColl : Bool
  /-- `MSG` (10_state.md R17). -/
  msg : Memory
  /-- `RA_MSGLEN` (10_state.md R17). -/
  raMsglen : Offset
  /-- `BC_BF` (10_state.md R18). -/
  bcBf : Bool
  /-- `BC_LASTSEQ` (10_state.md R18). -/
  bcLastseq : Byte
  /-- `BC_STRICT` (10_state.md R19). -/
  bcStrict : Bool
  /-- `TXBUF` (10_state.md R20). -/
  txbuf : Memory
  /-- `BC_TXLEN` (10_state.md R20). -/
  bcTxlen : Offset
  /-- `SYS_FAULT` (10_state.md R21). -/
  sysFault : BitVec 4
  /-- The implementation parameter `FRAG_MAX` (00_scope.md R5); no operation and no reset writes it. -/
  cfg : Config
  /-- The model's own: commands presented on the host port and not yet executed, oldest first (20_memory.md R40). -/
  hostIn : List HostCommand
  /-- The model's own: fragments presented on the fragment port and not yet executed, oldest first (20_memory.md
  R40). -/
  fragIn : List (List Byte)
  /-- The model's own: which agent acts next, and then (20_memory.md R41). Nothing constrains it, so a claim over
  every state is a claim over every interleaving. -/
  turns : List Agent
  /-- The model's own: the responses given on the host port, oldest first (30_encoding.md R56). -/
  hostOut : List Word
  /-- The model's own: the responses given on the fragment port, oldest first (30_encoding.md R56, R59). -/
  fragOut : List Word
deriving DecidableEq, Repr

/-- The block of configuration `c` after reset (10_state.md R24), with nothing presented and nothing answered. -/
def State.resetOf (c : Config) : State where
  crcAcc := 0
  rxbuf := []
  raWoff := 0
  raColl := false
  msg := []
  raMsglen := 0
  bcBf := true
  bcLastseq := 0xFF
  bcStrict := false
  txbuf := []
  bcTxlen := 0
  sysFault := 0
  cfg := c
  hostIn := []
  fragIn := []
  turns := []
  hostOut := []
  fragOut := []

/-- The machine right after reset (10_state.md R24), for the suggested `FRAG_MAX` (DESIGN CHOICE, log entry 1). -/
def State.reset : State := State.resetOf Config.suggested

end Sys2Proof.Machine
end

