-- ==== Sys2Proof/Machine/Operands.lean ====
section
/-! DEFINITION. What an operand selects: the constants a mode selects (00_scope.md R5), the table step of a data byte
(40_crc.md R80, R81), the block a sequence number and a payload make (30_encoding.md R62). -/

namespace Sys2Proof.Machine

/-! ## Constants (00_scope.md R5) -/

/-- `CAP`: the capacity of `RXBUF` and of `TXBUF`. -/
def blockCapacity : Nat := 1029

/-- `EOT`: the end-of-transfer sentinel byte. -/
def eotByte : Byte := 0x04

/-- `P(m)`: the payload bytes of a block of mode `m`. -/
def payloadLen : Mode → Nat
  | .short => 128
  | .long => 1024

/-- `L(m)`: the total length of a block of mode `m`, `HDR + P(m) + TRL`. -/
def blockLen (m : Mode) : Nat := 3 + payloadLen m + 2

/-- `MARKER(m)`. -/
def markerByte : Mode → Byte
  | .short => 0x01
  | .long => 0x02

/-! ## CRC-16/ARC (40_crc.md R80, R81) -/

/-- One of the eight steps that make a table entry: shift right, and exclusive-or with 0xA001 where a 1 fell out. -/
def tableShift (c : HalfWord) : HalfWord := if c.getLsbD 0 then (c >>> 1) ^^^ 0xA001 else c >>> 1

/-- `k` such steps. -/
def tableShifts : Nat → HalfWord → HalfWord
  | 0, c => c
  | k + 1, c => tableShifts k (tableShift c)

/-- `TABLE[i]`, the constant table of 10_state.md R13 by the loop of 40_crc.md R81. -/
def tableEntry (i : Byte) : HalfWord := tableShifts 8 (i.zeroExtend 16)

/-- One step of the accumulator: `acc = (acc >> 8) ^ TABLE[(acc ^ byte) & 0xFF]` (40_crc.md R80, R83). -/
def crcStep (acc : HalfWord) (b : Byte) : HalfWord :=
  (acc >>> 8) ^^^ tableEntry (((acc ^^^ b.zeroExtend 16) &&& 0x00FF).truncate 8)

/-- `crc16_arc(s)` (40_crc.md R80): bytes in increasing index order, from 0x0000, no final exclusive-or. -/
def crc16Arc (s : List Byte) : HalfWord := s.foldl crcStep 0

/-! ## The block layout (30_encoding.md R62) -/

/-- The sequence complement `0xFF - s` (42_codec.md R116). -/
def complementOf (s : Byte) : Byte := 0xFF - s

/-- The payload region: the supplied bytes, zero-padded to `P(m)` (42_codec.md R113). -/
def paddedPayload (m : Mode) (src : List Byte) : List Byte :=
  src ++ List.replicate (payloadLen m - src.length) 0

/-- The trailer's byte at the lower offset: CRC bits 15..8 (20_memory.md R36). -/
def crcHigh (c : HalfWord) : Byte := c.extractLsb' 8 8

/-- The trailer's byte at the higher offset: CRC bits 7..0 (20_memory.md R36). -/
def crcLow (c : HalfWord) : Byte := c.extractLsb' 0 8

/-- The whole block that `BC.BUILD` writes (42_codec.md R113). -/
def builtBlock (m : Mode) (s : Byte) (src : List Byte) : List Byte :=
  [markerByte m, s, complementOf s] ++ paddedPayload m src
    ++ [crcHigh (crc16Arc (paddedPayload m src)), crcLow (crc16Arc (paddedPayload m src))]

end Sys2Proof.Machine
end

