-- ==== Sys2Proof/Machine/Flags.lean ====
section
/-! DEFINITION. The derived flags (10_state.md R22, 42_codec.md R110), the expected sequence number (10_state.md R18),
and the response words with their codes and data layouts (30_encoding.md R56 to R58). -/

namespace Sys2Proof.Machine

/-! ## Derived flags -/

/-- `eot`: the latest received message is the sentinel (10_state.md R22). -/
def eotFlag (s : State) : Bool := s.raMsglen == 1 && Memory.read s.msg 0 == some eotByte

/-- `compl_ok` (42_codec.md R110, R116). -/
def complOk (seq compl : Byte) : Bool := compl == complementOf seq

/-- `marker_ok` (42_codec.md R110). -/
def markerOk (m : Mode) (marker : Byte) : Bool := marker == markerByte m

/-- The expected next sequence number: `(BC_LASTSEQ + 1) mod 256` (42_codec.md R111). "0 when BC_BF = 1, as BC_LASTSEQ
is then 0xFF": the one formula holds in both cases (10_state.md R18). -/
def expectedSeq (s : State) : Byte := s.bcLastseq + 1

/-! ## Response words (30_encoding.md R56) -/

/-- The response codes of 30_encoding.md R57. -/
inductive Code
  | ok | incomplete | complete | crcMismatch | seqOk | seqGap | seqReject
  | fragEot | fragAppended | fragMessage | fault
deriving DecidableEq, Repr

/-- The `code` column of 30_encoding.md R57. -/
def codeBits : Code → BitVec 4
  | .ok => 0x0
  | .incomplete => 0x1
  | .complete => 0x2
  | .crcMismatch => 0x3
  | .seqOk => 0x4
  | .seqGap => 0x5
  | .seqReject => 0x6
  | .fragEot => 0x8
  | .fragAppended => 0x9
  | .fragMessage => 0xA
  | .fault => 0xF

/-- A response word: bits 31:28 the code, bits 27:0 the data (30_encoding.md R56). -/
def responseWord (c : Code) (data : BitVec 28) : Word := codeBits c ++ data

/-! ## Data layouts (30_encoding.md R58), most significant field first; bits not named are 0 -/

/-- "none". -/
def noData : BitVec 28 := 0

/-- `[7:0]` a byte. -/
def byteData (b : Byte) : BitVec 28 := (0 : BitVec 20) ++ b

/-- `[15:0]` a CRC value. -/
def crcData (c : HalfWord) : BitVec 28 := (0 : BitVec 12) ++ c

/-- `[10:0]` `RA_WOFF`; `[21:11]` `RA_MSGLEN`: the data of an `RA.FRAG` response. -/
def fragData (s : State) : BitVec 28 := (0 : BitVec 6) ++ s.raMsglen ++ s.raWoff

/-- `stat`: `[10:0]` `RA_WOFF`; `[21:11]` `RA_MSGLEN`; `[22]` `RA_COLL`; `[23]` `eot`. -/
def statData (s : State) : BitVec 28 :=
  (0 : BitVec 4) ++ BitVec.ofBool (eotFlag s) ++ BitVec.ofBool s.raColl ++ s.raMsglen ++ s.raWoff

/-- `SYS.STAT`: `[3:0]` `SYS_FAULT`; `[4]` `BC_STRICT`; `[5]` `BC_BF`; `[13:6]` `BC_LASTSEQ`; `[24:14]` `BC_TXLEN`. -/
def sysData (s : State) : BitVec 28 :=
  (0 : BitVec 3) ++ s.bcTxlen ++ s.bcLastseq ++ BitVec.ofBool s.bcBf ++ BitVec.ofBool s.bcStrict ++ s.sysFault

/-- `BC.VALIDATE`, `OK`: `[7:0]` `seq`; `[15:8]` `compl`; `[16]` `compl_ok`; `[17]` `marker_ok`. -/
def validData (m : Mode) (marker seq compl : Byte) : BitVec 28 :=
  (0 : BitVec 10) ++ BitVec.ofBool (markerOk m marker) ++ BitVec.ofBool (complOk seq compl) ++ compl ++ seq

/-- `BC.SEQCHK`: `[7:0]` `exp`; `[15:8]` `s`. -/
def seqData (expected received : Byte) : BitVec 28 := (0 : BitVec 12) ++ received ++ expected

/-- `BC.BUILD`: `[15:0]` the CRC; `[26:16]` `BC_TXLEN` after the build. -/
def buildData (c : HalfWord) (txlen : Offset) : BitVec 28 := (0 : BitVec 1) ++ txlen ++ c

/-- `FAULT`: `[3:0]` `SYS_FAULT`. -/
def faultData (code : BitVec 4) : BitVec 28 := (0 : BitVec 24) ++ code

end Sys2Proof.Machine
end

