-- ==== Sys2Proof/Machine/Ops.lean ====
section
/-! DEFINITION. The named operations every meaning is written over: giving a response, raising a fault and refusing
while one is latched (60_exceptions.md R142, R143), reset (70_reset_and_hazards.md R170), and access to the byte
spaces (20_memory.md R30, R33). -/

namespace Sys2Proof.Machine

/-- What a step or a meaning answers. -/
abbrev Result := Host.Outcome State Fault Refusal

/-! ## Responses (30_encoding.md R56) -/

/-- One response word, given on the port the operation came in by. -/
def answer (p : Port) (w : Word) (s : State) : State :=
  match p with
  | .host => { s with hostOut := s.hostOut ++ [w] }
  | .fragment => { s with fragOut := s.fragOut ++ [w] }

/-- `respond CODE(fields)` (00_scope.md R7). -/
def respond (p : Port) (c : Code) (data : BitVec 28) (s : State) : Result :=
  .next (answer p (responseWord c data) s)

/-! ## Faults (60_exceptions.md) -/

/-- The six faults of 60_exceptions.md R140. -/
inductive FaultCode
  | capacityOverflow | blockOverrun | illegalCommand | notHandedOff | buildOversize | readUnwritten
deriving DecidableEq, Repr

/-- The `Code` column of 60_exceptions.md R140. -/
def faultBits : FaultCode → BitVec 4
  | .capacityOverflow => 1
  | .blockOverrun => 2
  | .illegalCommand => 3
  | .notHandedOff => 4
  | .buildOversize => 5
  | .readUnwritten => 6

/-- The response `FAULT(SYS_FAULT)`: the latched code, nothing else (60_exceptions.md R142 (3), R143). -/
def answerFault (p : Port) (s : State) : Result := respond p .fault (faultData s.sysFault) s

/-- `raise Fault(code)` (60_exceptions.md R142), in the state the operation began in: the code is latched if none is,
nothing else is written, and the response is `FAULT(SYS_FAULT)`. -/
def raiseFault (p : Port) (c : FaultCode) (s : State) : Result :=
  answerFault p { s with sysFault := if s.sysFault = 0 then faultBits c else s.sysFault }

/-- The latched-fault check that begins every operation but `SYS.STAT` (60_exceptions.md R143, R146 step 2). -/
def guarded (p : Port) (s : State) (body : State → Result) : Result :=
  if s.sysFault = 0 then body s else answerFault p s

/-- Reset, the only thing that clears a latched fault (70_reset_and_hazards.md R170, 60_exceptions.md R144): every
piece of the block's state at its value of 10_state.md R24. It gives no response, and what the agents have presented
and been answered is not the block's state. -/
def resetBlock (s : State) : State :=
  { State.resetOf s.cfg with
    hostIn := s.hostIn, fragIn := s.fragIn, turns := s.turns, hostOut := s.hostOut, fragOut := s.fragOut }

/-! ## Byte spaces (20_memory.md) -/

/-- The written bytes of a space. -/
def spaceOf (s : State) : Space → Memory
  | .rxbuf => s.rxbuf
  | .txbuf => s.txbuf
  | .msg => s.msg

/-- The size of a space (20_memory.md R30). -/
def capacityOf (s : State) : Space → Nat
  | .rxbuf => blockCapacity
  | .txbuf => blockCapacity
  | .msg => s.cfg.fragMax

/-- The state with the bytes of one space replaced. -/
def setSpace (sp : Space) (m : Memory) (s : State) : State :=
  match sp with
  | .rxbuf => { s with rxbuf := m }
  | .txbuf => { s with txbuf := m }
  | .msg => { s with msg := m }

/-- Sets a space's length register to `n` and makes the bytes at and beyond `n` unwritten (20_memory.md R33). -/
def setLength (sp : Space) (n : Nat) (s : State) : State :=
  match sp with
  | .rxbuf => { s with rxbuf := Memory.truncate s.rxbuf n, raWoff := BitVec.ofNat 11 n }
  | .txbuf => { s with txbuf := Memory.truncate s.txbuf n, bcTxlen := BitVec.ofNat 11 n }
  | .msg => { s with msg := Memory.truncate s.msg n, raMsglen := BitVec.ofNat 11 n }

/-- Reads one byte of a space and goes on with it. -/
def withByte (sp : Space) (a : Nat) (s : State) (body : Byte → Result) : Result :=
  match Memory.read (spaceOf s sp) a with
  | some b => body b
  | none => .fault (.noByte sp a)

/-- Reads `n` bytes of a space from offset `a` on and goes on with them (`MemRead`, 00_scope.md R7). -/
def withBytes (sp : Space) (a n : Nat) (s : State) (body : List Byte → Result) : Result :=
  match Memory.readBytes (spaceOf s sp) a n with
  | some bs => body bs
  | none => .fault (.noByte sp a)

/-- Writes a byte string into a space and goes on with the state after it (`MemWrite`, 00_scope.md R7). -/
def withWrite (sp : Space) (a : Nat) (bs : List Byte) (s : State) (body : State → Result) : Result :=
  if a + bs.length ≤ capacityOf s sp then body (setSpace sp (Memory.writeBytes (spaceOf s sp) a bs) s)
  else .fault (.outsideSpace sp (a + bs.length))

/-- Fills a space with exactly the byte string `bs`, from offset 0, and sets its length register. -/
def withFill (sp : Space) (bs : List Byte) (s : State) (body : State → Result) : Result :=
  withWrite sp 0 bs s fun s' => body (setLength sp bs.length s')

/-- A host read of one byte: `READ_UNWRITTEN` at or beyond the length register, else the byte (20_memory.md R33). -/
def readCommand (sp : Space) (length a : Offset) (s : State) : Result :=
  if length.toNat ≤ a.toNat then raiseFault .host .readUnwritten s
  else withByte sp a.toNat s fun b => respond .host .ok (byteData b) s

end Sys2Proof.Machine
end

