-- ==== Sys2Proof/Machine/Codec.lean ====
section
/-! DEFINITION. The Block Codec: `BC.VALIDATE`, `BC.SEQCHK`, `BC.SEQINIT`, `BC.BUILD`, `BC.TXRD` (42_codec.md). -/

namespace Sys2Proof.Machine

/-- `BC.VALIDATE m` (42_codec.md R110). Only the checksum decides between `OK` and `CRC_MISMATCH` (90_conflicts.md
C4); the accumulator is private (10_state.md R25). -/
def execBcValidate (m : Mode) (s : State) : Result :=
  guarded .host s fun s =>
    if s.raColl ∨ s.raWoff.toNat ≠ blockLen m then raiseFault .host .notHandedOff s
    else
      withByte .rxbuf 0 s fun marker =>
      withByte .rxbuf 1 s fun seq =>
      withByte .rxbuf 2 s fun compl =>
      withBytes .rxbuf 3 (payloadLen m) s fun payload =>
      withByte .rxbuf (3 + payloadLen m) s fun high =>
      withByte .rxbuf (3 + payloadLen m + 1) s fun low =>
        if crc16Arc payload ≠ high ++ low then respond .host .crcMismatch (crcData (crc16Arc payload)) s
        else respond .host .ok (validData m marker seq compl) s

/-- `BC.SEQCHK s` (42_codec.md R111); `r` is the received sequence number. -/
def execBcSeqchk (r : Byte) (s : State) : Result :=
  guarded .host s fun s =>
    let e := expectedSeq s
    if r = e then respond .host .seqOk (seqData e r) { s with bcLastseq := r, bcBf := false }
    else if s.bcStrict = false then respond .host .seqGap (seqData e r) { s with bcLastseq := r, bcBf := false }
    else respond .host .seqReject (seqData e r) s

/-- `BC.SEQINIT` (42_codec.md R112). -/
def execBcSeqinit (s : State) : Result :=
  guarded .host s fun s => respond .host .ok noData { s with bcBf := true, bcLastseq := 0xFF }

/-- `BC.BUILD m, s, n` with payload `src` (42_codec.md R113); `q` is the sequence number. The whole block or nothing
(20_memory.md R39). -/
def execBcBuild (m : Mode) (q : Byte) (src : List Byte) (s : State) : Result :=
  guarded .host s fun s =>
    if src.length > payloadLen m then raiseFault .host .buildOversize s
    else
      withFill .txbuf (builtBlock m q src) s fun s' =>
        respond .host .ok (buildData (crc16Arc (paddedPayload m src)) s'.bcTxlen) s'

/-- `BC.TXRD a` (42_codec.md R114). -/
def execBcTxrd (a : Offset) (s : State) : Result :=
  guarded .host s fun s => readCommand .txbuf s.bcTxlen a s

end Sys2Proof.Machine
end

