-- ==== Sys2Proof/Machine/Crc.lean ====
section
/-! DEFINITION. The Checksum Engine: `CRC.INIT`, `CRC.UPD`, `CRC.GET` (40_crc.md). -/

namespace Sys2Proof.Machine

/-- `CRC.INIT` (40_crc.md R82). -/
def execCrcInit (s : State) : Result :=
  guarded .host s fun s => respond .host .ok noData { s with crcAcc := 0 }

/-- `CRC.UPD b` (40_crc.md R83): the response carries the new accumulator. -/
def execCrcUpd (b : Byte) (s : State) : Result :=
  guarded .host s fun s =>
    respond .host .ok (crcData (crcStep s.crcAcc b)) { s with crcAcc := crcStep s.crcAcc b }

/-- `CRC.GET` (40_crc.md R84). -/
def execCrcGet (s : State) : Result :=
  guarded .host s fun s => respond .host .ok (crcData s.crcAcc) s

end Sys2Proof.Machine
end

