-- ==== Sys2Proof/Machine/Reassembler.lean ====
section
/-! DEFINITION. The Fragment Reassembler: `RA.FRAG` on the fragment port and the six `RA` commands of the host port
(41_reassembler.md). -/

namespace Sys2Proof.Machine

/-- Records a fragment as the latest received message: `MSG` holds exactly its bytes, `RA_MSGLEN` its length
(10_state.md R17). -/
def recordMessage (f : List Byte) (s : State) (body : State → Result) : Result := withFill .msg f s body

/-- `RA.FRAG f` (41_reassembler.md R90). The sentinel test comes first and does not look at `RA_COLL` (90_conflicts.md
C1); the capacity test comes before the write. -/
def execRaFrag (f : List Byte) (s : State) : Result :=
  guarded .fragment s fun s =>
    if f = [eotByte] then
      recordMessage f { s with raColl := false } fun s' => respond .fragment .fragEot (fragData s') s'
    else if s.raColl then
      if s.raWoff.toNat + f.length > blockCapacity then raiseFault .fragment .capacityOverflow s
      else
        withWrite .rxbuf s.raWoff.toNat f s fun s' =>
          let s'' := { s' with raWoff := BitVec.ofNat 11 (s.raWoff.toNat + f.length) }
          respond .fragment .fragAppended (fragData s'') s''
    else
      recordMessage f s fun s' => respond .fragment .fragMessage (fragData s') s'

/-- `RA.ARM` (41_reassembler.md R91): all bytes of `RXBUF` become unwritten. -/
def execRaArm (s : State) : Result :=
  guarded .host s fun s => respond .host .ok noData { setLength .rxbuf 0 s with raColl := true }

/-- `RA.POLL m` (41_reassembler.md R92): the test and the hand-off in one step (20_memory.md R44). -/
def execRaPoll (m : Mode) (s : State) : Result :=
  guarded .host s fun s =>
    if s.raWoff.toNat > blockLen m then raiseFault .host .blockOverrun s
    else if s.raWoff.toNat = blockLen m then
      let s' := { s with raColl := false }
      respond .host .complete (statData s') s'
    else respond .host .incomplete (statData s) s

/-- `RA.STAT` (41_reassembler.md R93). -/
def execRaStat (s : State) : Result :=
  guarded .host s fun s => respond .host .ok (statData s) s

/-- `RA.MSGRD a` (41_reassembler.md R94). -/
def execRaMsgrd (a : Offset) (s : State) : Result :=
  guarded .host s fun s => readCommand .msg s.raMsglen a s

/-- `RA.MSGCLR` (41_reassembler.md R95). -/
def execRaMsgclr (s : State) : Result :=
  guarded .host s fun s => respond .host .ok noData (setLength .msg 0 s)

/-- `RA.RXRD a` (41_reassembler.md R96): `NOT_HANDED_OFF` is tested first. -/
def execRaRxrd (a : Offset) (s : State) : Result :=
  guarded .host s fun s =>
    if s.raColl then raiseFault .host .notHandedOff s else readCommand .rxbuf s.raWoff a s

end Sys2Proof.Machine
end

