-- ==== Sys2Proof/Machine/System.lean ====
section
/-! DEFINITION. The system commands: `SYS.STAT`, `SYS.CFG` (43_system.md). -/

namespace Sys2Proof.Machine

/-- `SYS.STAT` (43_system.md R130): exempt from the latched-fault refusal. -/
def execSysStat (s : State) : Result := respond .host .ok (sysData s) s

/-- `SYS.CFG cfg` (43_system.md R131). -/
def execSysCfg (strict : Bool) (s : State) : Result :=
  guarded .host s fun s => respond .host .ok noData { s with bcStrict := strict }

end Sys2Proof.Machine
end

