-- ==== Sys2Proof/Machine/Dispatch.lean ====
section
/-! DEFINITION. One arm per operation, each one direct call of its meaning. -/

namespace Sys2Proof.Machine

open Sys2Proof

def exec (i : Instr) (s : State) : Host.Outcome State Fault Refusal :=
  match i with
  | .sysStat => Sys2Proof.Machine.execSysStat s
  | .sysCfg strict => Sys2Proof.Machine.execSysCfg strict s
  | .crcInit => Sys2Proof.Machine.execCrcInit s
  | .crcUpd b => Sys2Proof.Machine.execCrcUpd b s
  | .crcGet => Sys2Proof.Machine.execCrcGet s
  | .raArm => Sys2Proof.Machine.execRaArm s
  | .raPoll m => Sys2Proof.Machine.execRaPoll m s
  | .raStat => Sys2Proof.Machine.execRaStat s
  | .raMsgrd a => Sys2Proof.Machine.execRaMsgrd a s
  | .raMsgclr => Sys2Proof.Machine.execRaMsgclr s
  | .raRxrd a => Sys2Proof.Machine.execRaRxrd a s
  | .bcValidate m => Sys2Proof.Machine.execBcValidate m s
  | .bcSeqchk q => Sys2Proof.Machine.execBcSeqchk q s
  | .bcSeqinit => Sys2Proof.Machine.execBcSeqinit s
  | .bcBuild m q src => Sys2Proof.Machine.execBcBuild m q src s
  | .bcTxrd a => Sys2Proof.Machine.execBcTxrd a s
  | .raFrag f => Sys2Proof.Machine.execRaFrag f s

end Sys2Proof.Machine
end

