-- ==== Sys2Proof/Machine/Ports.lean ====
section
/-! DEFINITION. How presented operations come to run: the host port, the fragment port, the turns of the three agents
(00_scope.md R3, R4, 20_memory.md R40, R41, 60_exceptions.md R146, R150). -/

namespace Sys2Proof.Machine

/-- An illegal command word (30_encoding.md R54), after the latched-fault check (60_exceptions.md R146 steps 2, 3). -/
def illegalCommand (s : State) : Result := guarded .host s fun s => raiseFault .host .illegalCommand s

/-- The host port executes one command, its payload with it (30_encoding.md R55). A `SYS.STAT` word is decoded before
the fault latch is looked at (60_exceptions.md R146 step 1). -/
def serveCommand (c : HostCommand) (s : State) : Result :=
  match decode s.cfg (.command c) with
  | .ok i => exec i s
  | .error e => if e.isIllegalWord then illegalCommand s else .refused (.payloadLength c.payload.length)

/-- The fragment port executes one fragment (30_encoding.md R59). -/
def serveFragment (f : List Byte) (s : State) : Result :=
  match decode s.cfg (.fragment f) with
  | .ok i => exec i s
  | .error _ => .refused (.fragmentTooLong f.length)

/-- The host's turn: its oldest pending command, if it has presented one (20_memory.md R40). -/
def hostTurn (s : State) : Result :=
  match s.hostIn with
  | [] => .next s
  | c :: rest => serveCommand c { s with hostIn := rest }

/-- The transport side's turn: its oldest pending fragment, if it has presented one (20_memory.md R40). -/
def transportTurn (s : State) : Result :=
  match s.fragIn with
  | [] => .next s
  | f :: rest => serveFragment f { s with fragIn := rest }

/-- One step of the whole machine: the agent whose turn it is acts. Without a turn nothing is executed. -/
def takeTurn (s : State) : Result :=
  match s.turns with
  | [] => .next s
  | .host :: rest => hostTurn { s with turns := rest }
  | .transport :: rest => transportTurn { s with turns := rest }
  | .environment :: rest => .next (resetBlock { s with turns := rest })

/-- The state in which a packet is the next operation: first on its port, with its port's agent to act next. -/
def presentFirst (p : Packet) (s : State) : State :=
  match p with
  | .command c => { s with hostIn := c :: s.hostIn, turns := .host :: s.turns }
  | .fragment f => { s with fragIn := f :: s.fragIn, turns := .transport :: s.turns }

end Sys2Proof.Machine
end

