-- ==== Sys2Proof/Machine/Step.lean ====
section
/-! DEFINITION. The step of the machine, and the state whose next step runs a given word of the opcode table. -/

namespace Sys2Proof.Machine

/-- One step: one operation of one port, a reset, or nothing (00_scope.md R4). -/
def step (s : State) : Host.Outcome State Fault Refusal := takeTurn s

/-- `s` with the instruction whose bits are `w` presented on its port, to be executed by the very next step (log
entry 6). -/
def State.withFetchWord (s : State) (nbits w : Nat) : State := presentFirst (packetOfTableWord nbits w) s

end Sys2Proof.Machine
end

