-- ==== Sys2Proof/Safety.lean ====
section
/-! DEFINITION. What a sound state is (10_state.md R23, 20_memory.md R33), what it means that no fault is latched
(60_exceptions.md R144), and running several operations or several steps. -/

namespace Sys2Proof.Machine

/-- The invariants of 10_state.md R23, the range of `FRAG_MAX` (00_scope.md R5), and that each byte space holds
exactly the bytes below its length register (20_memory.md R33). -/
structure State.Inv (s : State) : Prop where
  cfgLegal : s.cfg.Legal
  rxbufHolds : s.rxbuf.Holds s.raWoff.toNat
  txbufHolds : s.txbuf.Holds s.bcTxlen.toNat
  msgHolds : s.msg.Holds s.raMsglen.toNat
  woffBound : s.raWoff.toNat ≤ 1029
  msglenBound : s.raMsglen.toNat ≤ s.cfg.fragMax
  txlenLegal : s.bcTxlen = 0 ∨ s.bcTxlen = 133 ∨ s.bcTxlen = 1029
  beforeFirst : s.bcBf = true → s.bcLastseq = 0xFF
  faultLegal : s.sysFault.toNat ≤ 6

/-- No fault is latched: the premise or conclusion of a claim about a trace (60_exceptions.md R144). -/
abbrev State.Unfaulted (s : State) : Prop := s.sysFault = 0

/-- Whether every pending packet is one its port can carry (30_encoding.md R55, R59). -/
def State.inputsPresentable (s : State) : Bool :=
  s.hostIn.all (fun c =>
    match decodeCommand c with
    | .ok _ => true
    | .error e => e.isIllegalWord) && s.fragIn.all fun f => decide (f.length ≤ s.cfg.fragMax)

/-- The port an operation is presented on and answered on (60_exceptions.md R149). -/
def portOf : Instr → Port
  | .raFrag _ => .fragment
  | .sysStat => .host
  | .sysCfg _ => .host
  | .crcInit => .host
  | .crcUpd _ => .host
  | .crcGet => .host
  | .raArm => .host
  | .raPoll _ => .host
  | .raStat => .host
  | .raMsgrd _ => .host
  | .raMsgclr => .host
  | .raRxrd _ => .host
  | .bcValidate _ => .host
  | .bcSeqchk _ => .host
  | .bcSeqinit => .host
  | .bcBuild _ _ _ => .host
  | .bcTxrd _ => .host

/-- The responses given on a port so far, oldest first. -/
def State.answersOn (s : State) : Port → List Word
  | .host => s.hostOut
  | .fragment => s.fragOut

/-- Operations executed one after another: a trace of 30_encoding.md R64, in execution order. -/
def execAll : List Instr → State → Host.Outcome State Fault Refusal
  | [], s => .next s
  | i :: is, s =>
    match exec i s with
    | .next s' => execAll is s'
    | .fault r => .fault r
    | .refused r => .refused r

/-- `n` steps of the machine. -/
def steps : Nat → State → Host.Outcome State Fault Refusal
  | 0, s => .next s
  | n + 1, s =>
    match step s with
    | .next s' => steps n s'
    | .fault r => .fault r
    | .refused r => .refused r

end Sys2Proof.Machine
end

