-- ==== Sys2Proof/Certificates/Slice0/Obligations.lean ====
section
/-! DEFINITION. The statements for the provers. Response words, rows and table entries are written out here from the
spec (30_encoding.md R53, R57, R58; 40_crc.md R81), not taken from the model's own functions. -/

open Sys2Proof Sys2Proof.Machine

/-! ## Words of the spec -/

namespace Sys2Proof.Spec

/-- A `FAULT` response (60_exceptions.md R142): `0xF0000000 | SYS_FAULT`. -/
def faultWord (code : BitVec 4) : Word := 0xF0000000#32 ||| code.zeroExtend 32

/-- An `OK` response with a byte in `data[7:0]`. -/
def byteWord (b : Byte) : Word := 0#24 ++ b

/-- An `OK` response with a CRC value in `data[15:0]`. -/
def accWord (c : HalfWord) : Word := 0#16 ++ c

/-- An `RA.FRAG` response: `[10:0]` `RA_WOFF`, `[21:11]` `RA_MSGLEN`. -/
def fragWord (code : BitVec 4) (msglen woff : Offset) : Word := code ++ 0#6 ++ msglen ++ woff

/-- The flag `eot` of 10_state.md R22. -/
def eot (s : State) : Bool := decide (s.raMsglen = 1 ∧ Memory.read s.msg 0 = some 0x04)

/-- A response with `stat`: `[10:0]` `RA_WOFF`, `[21:11]` `RA_MSGLEN`, `[22]` `RA_COLL`, `[23]` `eot`. -/
def statWord (code : BitVec 4) (s : State) : Word :=
  code ++ 0#4 ++ BitVec.ofBool (eot s) ++ BitVec.ofBool s.raColl ++ s.raMsglen ++ s.raWoff

/-- A `BC.SEQCHK` response: `[7:0]` `exp`, `[15:8]` `s`. -/
def seqWord (code : BitVec 4) (expected received : Byte) : Word := code ++ 0#12 ++ received ++ expected

/-- A payload zero-padded to `P(m)` (42_codec.md R113). -/
def padded (m : Mode) (src : List Byte) : List Byte := src ++ List.replicate (payloadLen m - src.length) 0

/-- A block: marker, sequence, complement, padded payload, CRC of the padded payload with the high byte first
(30_encoding.md R62, 20_memory.md R36). -/
def block (m : Mode) (q : Byte) (src : List Byte) : List Byte :=
  [if m = .short then 0x01 else 0x02, q, 0xFF - q] ++ padded m src
    ++ [(crc16Arc (padded m src) >>> 8).truncate 8, (crc16Arc (padded m src)).truncate 8]

/-- The `SYS.STAT` response: `[3:0]` `SYS_FAULT`, `[4]` `BC_STRICT`, `[5]` `BC_BF`, `[13:6]` `BC_LASTSEQ`, `[24:14]`
`BC_TXLEN`. -/
def sysWord (s : State) : Word :=
  0#7 ++ s.bcTxlen ++ s.bcLastseq ++ BitVec.ofBool s.bcBf ++ BitVec.ofBool s.bcStrict ++ s.sysFault

/-- The `BC.VALIDATE` response to a block of mode `m` (42_codec.md R110): `OK` with `[7:0]` `seq`, `[15:8]` `compl`,
`[16]` `compl_ok`, `[17]` `marker_ok`, where the CRC of the payload is the big-endian trailer; else `CRC_MISMATCH` with
the CRC computed. -/
def validWord (m : Mode) (marker q compl high low : Byte) (payload : List Byte) : Word :=
  if crc16Arc payload = high ++ low then
    0#14 ++ BitVec.ofBool (decide (marker = if m = .short then 0x01 else 0x02))
      ++ BitVec.ofBool (decide (compl = 0xFF - q)) ++ compl ++ q
  else 0x3#4 ++ 0#12 ++ crc16Arc payload

/-- The `BC.BUILD` response: `[15:0]` the CRC of the padded payload, `[26:16]` `BC_TXLEN` after the build. -/
def buildWord (m : Mode) (src : List Byte) : Word := 0#5 ++ BitVec.ofNat 11 (blockLen m) ++ crc16Arc (padded m src)

/-- The `match` and `mask` columns of 30_encoding.md R53. -/
def rows : List (Word × Word) :=
  [(0x01000000, 0xFFFFFFFF), (0x02000000, 0xFFFFFFFE), (0x10000000, 0xFFFFFFFF), (0x11000000, 0xFFFFFF00),
   (0x12000000, 0xFFFFFFFF), (0x20000000, 0xFFFFFFFF), (0x21000000, 0xFF7FFFFF), (0x22000000, 0xFFFFFFFF),
   (0x23000000, 0xFFF800FF), (0x24000000, 0xFFFFFFFF), (0x25000000, 0xFFF800FF), (0x30000000, 0xFF7FFFFF),
   (0x31000000, 0xFFFFFF00), (0x32000000, 0xFFFFFFFF), (0x33000000, 0xFF780000), (0x34000000, 0xFFF800FF)]

/-- The host command `w` with payload `p` is the operation `i`, and while a fault is latched `i` is refused with the
latched code and writes nothing (60_exceptions.md R143). -/
def CommandRule (i : Instr) (w : Word) (p : List Byte) : Prop :=
  (∀ cfg, decode cfg (.command ⟨w, p⟩) = .ok i) ∧
  ∀ s : State, s.sysFault ≠ 0 → exec i s = .next { s with hostOut := s.hostOut ++ [faultWord s.sysFault] }

/-- Every word with this `op` that does not match its row raises `ILLEGAL_COMMAND` (30_encoding.md R54). -/
def IllegalForms (op want mask : Word) : Prop :=
  ∀ (w : Word) (p : List Byte) (s : State), s.sysFault = 0 → w >>> 24 = op → w &&& mask ≠ want →
    serveCommand ⟨w, p⟩ s = .next { s with sysFault := 3, hostOut := s.hostOut ++ [faultWord 3] }

/-- Whether an operation is one of `CRC.INIT`, `CRC.UPD`, `CRC.GET`. -/
def isCrc : Instr → Bool
  | .crcInit => true
  | .crcUpd _ => true
  | .crcGet => true
  | _ => false

/-- The fragment an operation presents, if it is `RA.FRAG`. -/
def fragmentOf : Instr → Option (List Byte)
  | .raFrag f => some f
  | _ => none

/-- The response codes of 30_encoding.md R57, by the operation that returns them; 0xF is `FAULT`. -/
def codesOf : Instr → List (BitVec 4)
  | .sysStat => [0x0]
  | .raPoll _ => [0x1, 0x2, 0xF]
  | .bcValidate _ => [0x0, 0x3, 0xF]
  | .bcSeqchk _ => [0x4, 0x5, 0x6, 0xF]
  | .raFrag _ => [0x8, 0x9, 0xA, 0xF]
  | _ => [0x0, 0xF]

/-- The listing of `TABLE` in 40_crc.md R81, first half. -/
def tableLow : List HalfWord :=
  [0x0000, 0xC0C1, 0xC181, 0x0140, 0xC301, 0x03C0, 0x0280, 0xC241] ++
  [0xC601, 0x06C0, 0x0780, 0xC741, 0x0500, 0xC5C1, 0xC481, 0x0440] ++
  [0xCC01, 0x0CC0, 0x0D80, 0xCD41, 0x0F00, 0xCFC1, 0xCE81, 0x0E40] ++
  [0x0A00, 0xCAC1, 0xCB81, 0x0B40, 0xC901, 0x09C0, 0x0880, 0xC841] ++
  [0xD801, 0x18C0, 0x1980, 0xD941, 0x1B00, 0xDBC1, 0xDA81, 0x1A40] ++
  [0x1E00, 0xDEC1, 0xDF81, 0x1F40, 0xDD01, 0x1DC0, 0x1C80, 0xDC41] ++
  [0x1400, 0xD4C1, 0xD581, 0x1540, 0xD701, 0x17C0, 0x1680, 0xD641] ++
  [0xD201, 0x12C0, 0x1380, 0xD341, 0x1100, 0xD1C1, 0xD081, 0x1040] ++
  [0xF001, 0x30C0, 0x3180, 0xF141, 0x3300, 0xF3C1, 0xF281, 0x3240] ++
  [0x3600, 0xF6C1, 0xF781, 0x3740, 0xF501, 0x35C0, 0x3480, 0xF441] ++
  [0x3C00, 0xFCC1, 0xFD81, 0x3D40, 0xFF01, 0x3FC0, 0x3E80, 0xFE41] ++
  [0xFA01, 0x3AC0, 0x3B80, 0xFB41, 0x3900, 0xF9C1, 0xF881, 0x3840] ++
  [0x2800, 0xE8C1, 0xE981, 0x2940, 0xEB01, 0x2BC0, 0x2A80, 0xEA41] ++
  [0xEE01, 0x2EC0, 0x2F80, 0xEF41, 0x2D00, 0xEDC1, 0xEC81, 0x2C40] ++
  [0xE401, 0x24C0, 0x2580, 0xE541, 0x2700, 0xE7C1, 0xE681, 0x2640] ++
  [0x2200, 0xE2C1, 0xE381, 0x2340, 0xE101, 0x21C0, 0x2080, 0xE041]

/-- The listing of `TABLE` in 40_crc.md R81, second half. -/
def tableHigh : List HalfWord :=
  [0xA001, 0x60C0, 0x6180, 0xA141, 0x6300, 0xA3C1, 0xA281, 0x6240] ++
  [0x6600, 0xA6C1, 0xA781, 0x6740, 0xA501, 0x65C0, 0x6480, 0xA441] ++
  [0x6C00, 0xACC1, 0xAD81, 0x6D40, 0xAF01, 0x6FC0, 0x6E80, 0xAE41] ++
  [0xAA01, 0x6AC0, 0x6B80, 0xAB41, 0x6900, 0xA9C1, 0xA881, 0x6840] ++
  [0x7800, 0xB8C1, 0xB981, 0x7940, 0xBB01, 0x7BC0, 0x7A80, 0xBA41] ++
  [0xBE01, 0x7EC0, 0x7F80, 0xBF41, 0x7D00, 0xBDC1, 0xBC81, 0x7C40] ++
  [0xB401, 0x74C0, 0x7580, 0xB541, 0x7700, 0xB7C1, 0xB681, 0x7640] ++
  [0x7200, 0xB2C1, 0xB381, 0x7340, 0xB101, 0x71C0, 0x7080, 0xB041] ++
  [0x5000, 0x90C1, 0x9181, 0x5140, 0x9301, 0x53C0, 0x5280, 0x9241] ++
  [0x9601, 0x56C0, 0x5780, 0x9741, 0x5500, 0x95C1, 0x9481, 0x5440] ++
  [0x9C01, 0x5CC0, 0x5D80, 0x9D41, 0x5F00, 0x9FC1, 0x9E81, 0x5E40] ++
  [0x5A00, 0x9AC1, 0x9B81, 0x5B40, 0x9901, 0x59C0, 0x5880, 0x9841] ++
  [0x8801, 0x48C0, 0x4980, 0x8941, 0x4B00, 0x8BC1, 0x8A81, 0x4A40] ++
  [0x4E00, 0x8EC1, 0x8F81, 0x4F40, 0x8D01, 0x4DC0, 0x4C80, 0x8C41] ++
  [0x4400, 0x84C1, 0x8581, 0x4540, 0x8701, 0x47C0, 0x4680, 0x8641] ++
  [0x8201, 0x42C0, 0x4380, 0x8341, 0x4100, 0x81C1, 0x8081, 0x4040]

end Sys2Proof.Spec

open Sys2Proof.Spec

/-! ## Encoding -/

/-- Words written out from 30_encoding.md R53 and V-vectors of 95_test_vectors.md, one or more of each family. That the
payload of 0x33800302 is three bytes 0, and that an 8-bit table word is a fragment of that one byte, is the model's own
reading of a table word (log entry 6); the words themselves are R53's. -/
def Obligations.WordsOfEveryFamilyDecode : Prop :=
  decodeTableWord 32 0x01000000 = some .sysStat ∧ decodeTableWord 32 0x02000001 = some (.sysCfg true) ∧
  decodeTableWord 32 0x11000031 = some (.crcUpd 0x31) ∧ decodeTableWord 32 0x12000000 = some .crcGet ∧
  decodeTableWord 32 0x21800000 = some (.raPoll .long) ∧ decodeTableWord 32 0x25008400 = some (.raRxrd 132) ∧
  decodeTableWord 32 0x30000000 = some (.bcValidate .short) ∧
  decodeTableWord 32 0x33800302 = some (.bcBuild .long 2 [0, 0, 0]) ∧
  decodeTableWord 8 0x04 = some (.raFrag [0x04]) ∧ decodeTableWord 32 0x11080041 = none

/-- 30_encoding.md R50 to R55, R59: decoding the encoding of a well-formed operation gives it back, for every operation
and every operand an encoding admits. -/
def Obligations.DecodeOfEncodeIsTheOperation : Prop :=
  ∀ (cfg : Config) (i : Instr), WellFormed cfg i = true → decode cfg (encode i) = .ok i

/-- 30_encoding.md R50 to R55, R59: a packet that decodes is the encoding of what it decodes to, which is well formed;
so no two packets are one operation. -/
def Obligations.EncodeOfDecodeIsThePacket : Prop :=
  ∀ (cfg : Config) (p : Packet) (i : Instr), decode cfg p = .ok i → encode i = p ∧ WellFormed cfg i = true

/-- 30_encoding.md R54: a word is illegal exactly when it matches no row under `word & mask = match`, and then raises
`ILLEGAL_COMMAND` and changes no other state. -/
def Obligations.WordMatchingNoRowIsIllegal : Prop :=
  (∀ (w : Word) (p : List Byte),
    (∃ e, decodeCommand ⟨w, p⟩ = .error e ∧ e.isIllegalWord = true) ↔ ∀ r ∈ rows, w &&& r.2 ≠ r.1) ∧
  ∀ (w : Word) (p : List Byte) (s : State), s.sysFault = 0 → (∀ r ∈ rows, w &&& r.2 ≠ r.1) →
    serveCommand ⟨w, p⟩ s = .next { s with sysFault := 3, hostOut := s.hostOut ++ [faultWord 3] }

/-- 30_encoding.md R55: the payload of a command that decodes is as long as its own first word says, 0 for all but
`BC.BUILD`; and a command leaves the port with its payload, whatever it does. The second clause is partly the model's
own: it speaks of the model's turns and queue (log entries 2, 3), and it covers illegal words, whose payload of any
length leaves with them by deduction from R55 (log entry 5). -/
def Obligations.PayloadBelongsToItsCommand : Prop :=
  (∀ (cfg : Config) (w : Word) (p : List Byte) (i : Instr), decode cfg (.command ⟨w, p⟩) = .ok i →
    p.length = if w >>> 24 = 0x33 then ((w >>> 8) &&& 0x7FF).toNat else 0) ∧
  ∀ (s t : State) (c : HostCommand) (cs : List HostCommand) (ts : List Agent), s.turns = .host :: ts →
    s.hostIn = c :: cs → step s = .next t → t.hostIn = cs

/-! ## Steps and ports -/

/-- 00_scope.md R4, 10_state.md R11: a step runs the operation its packet decodes to, in the state without that packet
and that turn; a turn without a packet runs nothing. The turns and the pending packets are the model's own (log entries
2, 3). -/
def Obligations.StepRunsTheDecodedOperation : Prop :=
  (∀ (s : State) (c : HostCommand) (cs : List HostCommand) (ts : List Agent) (i : Instr), s.turns = .host :: ts →
    s.hostIn = c :: cs → decode s.cfg (.command c) = .ok i → step s = exec i { s with turns := ts, hostIn := cs }) ∧
  (∀ (s : State) (f : List Byte) (fs : List (List Byte)) (ts : List Agent) (i : Instr), s.turns = .transport :: ts →
    s.fragIn = f :: fs → decode s.cfg (.fragment f) = .ok i → step s = exec i { s with turns := ts, fragIn := fs }) ∧
  (∀ (s : State) (ts : List Agent), s.turns = .host :: ts → s.hostIn = [] → step s = .next { s with turns := ts }) ∧
  (∀ (s : State) (ts : List Agent), s.turns = .transport :: ts → s.fragIn = [] →
    step s = .next { s with turns := ts }) ∧
  ∀ s : State, s.turns = [] → step s = .next s

/-- The model's own (log entry 6): a presented table word is the very next operation, run in exactly the state it was
presented to. -/
def Obligations.PresentedTableWordRunsNext : Prop :=
  ∀ (s : State) (nbits w : Nat) (i : Instr), decode s.cfg (packetOfTableWord nbits w) = .ok i →
    step (s.withFetchWord nbits w) = exec i s

/-- 20_memory.md R40, R41: a step serves one port, takes its oldest packet and gives one response there, and touches
neither the queue nor the responses of the other port; a reset gives no response. The queues, the turns and the record
of responses are the model's own (log entries 2, 3, 4). -/
def Obligations.StepServesOnePortInOrder : Prop :=
  ∀ (s t : State), step s = .next t →
    t.turns = s.turns.tail ∧
    match s.turns.head? with
    | none => t = s
    | some .host =>
      t.hostIn = s.hostIn.tail ∧ t.fragIn = s.fragIn ∧ t.fragOut = s.fragOut ∧
        (if s.hostIn = [] then t.hostOut = s.hostOut else ∃ w, t.hostOut = s.hostOut ++ [w])
    | some .transport =>
      t.fragIn = s.fragIn.tail ∧ t.hostIn = s.hostIn ∧ t.hostOut = s.hostOut ∧
        (if s.fragIn = [] then t.fragOut = s.fragOut else ∃ w, t.fragOut = s.fragOut ++ [w])
    | some .environment =>
      t.hostIn = s.hostIn ∧ t.fragIn = s.fragIn ∧ t.hostOut = s.hostOut ∧ t.fragOut = s.fragOut

/-- 30_encoding.md R56, R57: every operation gives exactly one response, on its own port, with a code that R57 gives
the operation; a `FAULT` response carries the latched code and nothing else. The record of responses is the model's own (log
entry 4). -/
def Obligations.OneResponseWithALegalCode : Prop :=
  ∀ (i : Instr) (s t : State), exec i s = .next t →
    (∃ w : Word, t.answersOn (portOf i) = s.answersOn (portOf i) ++ [w] ∧
      (w >>> 28).truncate 4 ∈ codesOf i ∧ ((w >>> 28).truncate 4 = (0xF : BitVec 4) → w = faultWord t.sysFault)) ∧
    ∀ p, p ≠ portOf i → t.answersOn p = s.answersOn p

/-- The model's own (log entry 8): packets that 30_encoding.md R55 and R59 say cannot be presented are refused by the
port under their names. -/
def Obligations.PacketsNoPortCarriesAreRefused : Prop :=
  (∀ (s : State) (f : List Byte), s.cfg.fragMax < f.length →
    serveFragment f s = .refused (.fragmentTooLong f.length)) ∧
  ∀ (s : State) (i : Instr) (w : Word) (p q : List Byte), decodeCommand ⟨w, p⟩ = .ok i → q.length ≠ p.length →
    serveCommand ⟨w, q⟩ s = .refused (.payloadLength q.length)

/-- The model's own (log entries 7, 8): one stop of each kind. An ill-formed `RA.FRAG`, longer than `FRAG_MAX`, which no
port carries, stops with `outsideSpace` in any unlatched state that is not collecting, sound or not; and in a state
without `State.Inv`, whose `MSG` lacks a byte below `RA_MSGLEN`, `RA.MSGRD` of it stops with `noByte`. `RA.RXRD`,
`BC.TXRD` and `BC.VALIDATE` stop so too where their space lacks a byte; they are not stated here. -/
def Obligations.AccessOutsideASpaceStops : Prop :=
  (∀ (s : State) (f : List Byte), s.sysFault = 0 → s.raColl = false → f ≠ [0x04] → s.cfg.fragMax < f.length →
    exec (.raFrag f) s = .fault (.outsideSpace .msg f.length)) ∧
  ∀ (s : State) (a : Offset), s.sysFault = 0 → a.toNat < s.raMsglen.toNat → Memory.read s.msg a.toNat = none →
    exec (.raMsgrd a) s = .fault (.noByte .msg a.toNat)

/-! ## Faults and reset -/

/-- 60_exceptions.md R142: an operation that raises a fault latches its code, responds with it, and writes no other
state, on either port. -/
def Obligations.RaisedFaultWritesOnlyTheLatch : Prop :=
  (∀ (c : HostCommand) (s t : State), serveCommand c s = .next t → s.sysFault = 0 → t.sysFault ≠ 0 →
    t = { s with sysFault := t.sysFault, hostOut := s.hostOut ++ [faultWord t.sysFault] }) ∧
  (∀ (f : List Byte) (s t : State), serveFragment f s = .next t → s.sysFault = 0 → t.sysFault ≠ 0 →
    t = { s with sysFault := t.sysFault, fragOut := s.fragOut ++ [faultWord t.sysFault] }) ∧
  ∀ (i : Instr) (s t : State), exec i s = .next t → s.sysFault ≠ 0 → t.sysFault = s.sysFault

/-- 60_exceptions.md R143: while a fault is latched, everything but a well-formed `SYS.STAT` is refused with the
latched code and writes no state: every operation, illegal words, fragments, a build with its payload. -/
def Obligations.LatchedFaultRefusesEverythingElse : Prop :=
  ∀ s : State, s.sysFault ≠ 0 →
    (∀ i : Instr, i ≠ .sysStat → portOf i = .host →
      exec i s = .next { s with hostOut := s.hostOut ++ [faultWord s.sysFault] }) ∧
    (∀ f : List Byte, exec (.raFrag f) s = .next { s with fragOut := s.fragOut ++ [faultWord s.sysFault] }) ∧
    (∀ (w : Word) (p : List Byte), (∀ r ∈ rows, w &&& r.2 ≠ r.1) →
      serveCommand ⟨w, p⟩ s = .next { s with hostOut := s.hostOut ++ [faultWord s.sysFault] }) ∧
    ∃ w : Word, exec .sysStat s = .next { s with hostOut := s.hostOut ++ [w] } ∧ w &&& 0xF = s.sysFault.zeroExtend 32 ∧
      w >>> 28 = 0

/-- 60_exceptions.md R144: along any number of steps without a reset, a latched code stays latched and the block's
state stays as it was; a reset clears it, and everything else too. -/
def Obligations.LatchedFaultStaysUntilReset : Prop :=
  (∀ (n : Nat) (s t : State), s.sysFault ≠ 0 → Agent.environment ∉ s.turns → steps n s = .next t →
    t = { s with
      hostIn := t.hostIn, fragIn := t.fragIn, turns := t.turns, hostOut := t.hostOut, fragOut := t.fragOut }) ∧
  ∀ (s : State) (ts : List Agent), s.sysFault ≠ 0 → s.turns = .environment :: ts →
    ∃ t, step s = .next t ∧ t.sysFault = 0 ∧
      t = { State.resetOf s.cfg with
        hostIn := t.hostIn, fragIn := t.fragIn, turns := t.turns, hostOut := t.hostOut, fragOut := t.fragOut }

/-- 60_exceptions.md R140: each fault is raised by exactly the operations and on exactly the conditions of the table. -/
def Obligations.FaultsAreRaisedExactlyAsTabled : Prop :=
  (∀ (i : Instr) (s t : State), s.sysFault = 0 → exec i s = .next t →
    (t.sysFault = 1 ↔ ∃ f, i = .raFrag f ∧ f ≠ [0x04] ∧ s.raColl = true ∧ s.raWoff.toNat + f.length > 1029) ∧
    (t.sysFault = 2 ↔ ∃ m, i = .raPoll m ∧ s.raWoff.toNat > blockLen m) ∧
    t.sysFault ≠ 3 ∧
    (t.sysFault = 4 ↔ (∃ m, i = .bcValidate m ∧ (s.raColl = true ∨ s.raWoff.toNat ≠ blockLen m)) ∨
      ∃ a, i = .raRxrd a ∧ s.raColl = true) ∧
    (t.sysFault = 5 ↔ ∃ m q src, i = .bcBuild m q src ∧ src.length > payloadLen m) ∧
    (t.sysFault = 6 ↔ (∃ a, i = .raRxrd a ∧ s.raColl = false ∧ s.raWoff.toNat ≤ a.toNat) ∨
      (∃ a, i = .raMsgrd a ∧ s.raMsglen.toNat ≤ a.toNat) ∨ ∃ a, i = .bcTxrd a ∧ s.bcTxlen.toNat ≤ a.toNat) ∧
    t.sysFault.toNat ≤ 6) ∧
  ∀ (c : HostCommand) (s t : State), s.sysFault = 0 → serveCommand c s = .next t →
    (t.sysFault = 3 ↔ ∀ r ∈ rows, c.word &&& r.2 ≠ r.1)

/-- 60_exceptions.md R146: the fixed order of the checks, each clause with two checks that both apply. -/
def Obligations.ChecksComeInTheFixedOrder : Prop :=
  (∀ s : State, serveCommand ⟨0x01000000, []⟩ s = exec .sysStat s ∧ ∃ t, exec .sysStat s = .next t ∧
    t.sysFault = s.sysFault ∧ ∃ w : Word, t.hostOut = s.hostOut ++ [w] ∧ w >>> 28 = 0) ∧
  (∀ (s : State) (w : Word) (p : List Byte), s.sysFault ≠ 0 → (∀ r ∈ rows, w &&& r.2 ≠ r.1) →
    serveCommand ⟨w, p⟩ s = .next { s with hostOut := s.hostOut ++ [faultWord s.sysFault] }) ∧
  (∀ (s : State) (w : Word) (p : List Byte), s.sysFault = 0 → (∀ r ∈ rows, w &&& r.2 ≠ r.1) →
    serveCommand ⟨w, p⟩ s = .next { s with sysFault := 3, hostOut := s.hostOut ++ [faultWord 3] }) ∧
  (∀ (s : State) (a : Offset), s.sysFault = 0 → s.raColl = true → s.raWoff.toNat ≤ a.toNat →
    exec (.raRxrd a) s = .next { s with sysFault := 4, hostOut := s.hostOut ++ [faultWord 4] }) ∧
  (∀ (s : State) (m : Mode), s.sysFault = 0 → s.raColl = true ∨ s.raWoff.toNat ≠ blockLen m →
    exec (.bcValidate m) s = .next { s with sysFault := 4, hostOut := s.hostOut ++ [faultWord 4] }) ∧
  (∀ s : State, s.sysFault = 0 → s.cfg.Legal → s.raColl = true → s.raWoff.toNat ≥ 1029 →
    ∃ t, exec (.raFrag [0x04]) s = .next t ∧ t.sysFault = 0 ∧ t.raColl = false) ∧
  ∀ (s : State) (f : List Byte), s.sysFault = 0 → s.raColl = true → f ≠ [0x04] → s.raWoff.toNat + f.length > 1029 →
    exec (.raFrag f) s = .next { s with sysFault := 1, fragOut := s.fragOut ++ [faultWord 1] }

/-- 70_reset_and_hazards.md R170, 10_state.md R24: reset sets every piece of the block's state to its reset value,
gives no response, and is the only step that clears a latched fault. What a port's own queue and the record of past
responses do is the model's choice (log entries 3, 4) and is not stated here. -/
def Obligations.ResetSetsEveryPieceOfState : Prop :=
  (∀ (s : State) (ts : List Agent), s.turns = .environment :: ts → ∃ t, step s = .next t ∧
    t.crcAcc = 0 ∧ (∀ a, Memory.read t.rxbuf a = none) ∧ t.raWoff = 0 ∧ t.raColl = false ∧
    (∀ a, Memory.read t.msg a = none) ∧ t.raMsglen = 0 ∧ t.bcBf = true ∧ t.bcLastseq = 0xFF ∧ t.bcStrict = false ∧
    (∀ a, Memory.read t.txbuf a = none) ∧ t.bcTxlen = 0 ∧ t.sysFault = 0 ∧
    t.hostOut.length = s.hostOut.length ∧ t.fragOut.length = s.fragOut.length) ∧
  ∀ s t : State, step s = .next t → s.sysFault ≠ 0 → t.sysFault = 0 → s.turns.head? = some .environment

/-! ## Invariants -/

/-- 10_state.md R23, R24, 20_memory.md R33: the state after reset is sound and no fault is latched in it, for every
legal `FRAG_MAX`; so too for `State.reset`, whose `FRAG_MAX` of 20 is the model's choice (log entry 1). -/
def Obligations.ResetStateIsSound : Prop :=
  State.reset.Inv ∧ State.reset.Unfaulted ∧
  ∀ cfg : Config, cfg.Legal → (State.resetOf cfg).Inv ∧ (State.resetOf cfg).Unfaulted

/-- 10_state.md R23, 20_memory.md R33: every step of a sound state leaves a sound state, whatever is presented. That
a sound byte space is a list in canonical form is the model's own part of `State.Inv` (log entry 11). -/
def Obligations.EveryStepKeepsTheStateSound : Prop :=
  ∀ s t : State, s.Inv → step s = .next t → t.Inv

/-- 10_state.md R23: its five invariants hold in every state reached from reset, whatever the agents present and in
whatever order. -/
def Obligations.ReachableStatesSatisfyTheStatedInvariants : Prop :=
  ∀ (cfg : Config) (hs : List HostCommand) (fs : List (List Byte)) (ts : List Agent) (n : Nat) (t : State),
    cfg.Legal → steps n { State.resetOf cfg with hostIn := hs, fragIn := fs, turns := ts } = .next t →
    t.raWoff.toNat ≤ 1029 ∧ t.raMsglen.toNat ≤ cfg.fragMax ∧
    (t.bcTxlen = 0 ∨ t.bcTxlen = 133 ∨ t.bcTxlen = 1029) ∧ (t.bcBf = true → t.bcLastseq = 0xFF) ∧
    (t.sysFault = 0 ∨ t.sysFault = 1 ∨ t.sysFault = 2 ∨ t.sysFault = 3 ∨ t.sysFault = 4 ∨ t.sysFault = 5 ∨
      t.sysFault = 6)

/-- The model's own (log entry 11): a byte space is held with strictly rising offsets, a form the spec says nothing
of, and every operation keeps that form. -/
def Obligations.EveryOperationKeepsMemoryCanonical : Prop :=
  ∀ (i : Instr) (s t : State), exec i s = .next t →
    (s.rxbuf.wf → t.rxbuf.wf) ∧ (s.txbuf.wf → t.txbuf.wf) ∧ (s.msg.wf → t.msg.wf)

/-- Every well-formed operation completes in every sound state: the model neither faults nor refuses. -/
def Obligations.WellFormedOperationsComplete : Prop :=
  ∀ (i : Instr) (s : State), s.Inv → WellFormed s.cfg i = true → ∃ t, exec i s = .next t

/-- The machine never stops: from a sound state whose pending packets the ports can carry, any number of steps, in any
interleaving and with resets anywhere, ends in such a state. The queues and the turns are the model's own (log entries
2, 3). -/
def Obligations.TheMachineNeverStops : Prop :=
  ∀ (n : Nat) (s : State), s.Inv → s.inputsPresentable = true →
    ∃ t, steps n s = .next t ∧ t.Inv ∧ t.inputsPresentable = true

/-- 10_state.md R12 to R21: each piece of state is written only by the operations its rule lists, and `SYS_FAULT` only
by fault entry and only while it is 0; no operation writes the configuration, the turns or what is pending. -/
def Obligations.EachRegisterHasOnlyItsOwnWriters : Prop :=
  ∀ (i : Instr) (s t : State), exec i s = .next t →
    (t.crcAcc ≠ s.crcAcc → i = .crcInit ∨ ∃ b, i = .crcUpd b) ∧
    (t.rxbuf ≠ s.rxbuf → i = .raArm ∨ ∃ f, i = .raFrag f ∧ f ≠ [0x04] ∧ s.raColl = true) ∧
    (t.raWoff ≠ s.raWoff → i = .raArm ∨ ∃ f, i = .raFrag f ∧ f ≠ [0x04] ∧ s.raColl = true) ∧
    (s.raColl = false → t.raColl = true → i = .raArm) ∧
    (s.raColl = true → t.raColl = false →
      i = .raFrag [0x04] ∨ ∃ m, i = .raPoll m ∧ s.raWoff.toNat = blockLen m) ∧
    (t.msg ≠ s.msg ∨ t.raMsglen ≠ s.raMsglen → i = .raMsgclr ∨ i = .raFrag [0x04] ∨
      ∃ f, i = .raFrag f ∧ s.raColl = false) ∧
    (t.bcBf ≠ s.bcBf ∨ t.bcLastseq ≠ s.bcLastseq → i = .bcSeqinit ∨ ∃ q, i = .bcSeqchk q) ∧
    (t.bcStrict ≠ s.bcStrict → ∃ b, i = .sysCfg b) ∧
    (t.txbuf ≠ s.txbuf ∨ t.bcTxlen ≠ s.bcTxlen → ∃ m q src, i = .bcBuild m q src) ∧
    (t.sysFault ≠ s.sysFault → s.sysFault = 0 ∧ 1 ≤ t.sysFault.toNat ∧ t.sysFault.toNat ≤ 6 ∧
      t.answersOn (portOf i) = s.answersOn (portOf i) ++ [faultWord t.sysFault]) ∧
    t.cfg = s.cfg ∧ t.hostIn = s.hostIn ∧ t.fragIn = s.fragIn ∧ t.turns = s.turns

/-! ## System commands -/

/-- 43_system.md R130: `SYS.STAT` reports and writes nothing, with or without a latched fault. -/
def Obligations.SysStatReportsAndWritesNothing : Prop :=
  (∀ s : State, exec .sysStat s = .next
      { s with hostOut := s.hostOut ++ [sysWord s] }) ∧
  (∀ cfg, decode cfg (.command ⟨0x01000000, []⟩) = .ok .sysStat) ∧
  (∀ cfg, exec .sysStat (State.resetOf cfg) = .next { State.resetOf cfg with hostOut := [0x00003FE0] }) ∧
  IllegalForms 0x01 0x01000000 0xFFFFFFFF

/-- 43_system.md R131: `SYS.CFG` writes `BC_STRICT` and nothing else. -/
def Obligations.SysCfgWritesOnlyStrict : Prop :=
  (∀ (s : State) (b : Bool), s.sysFault = 0 →
    exec (.sysCfg b) s = .next { s with bcStrict := b, hostOut := s.hostOut ++ [0x00000000] }) ∧
  CommandRule (.sysCfg false) 0x02000000 [] ∧ CommandRule (.sysCfg true) 0x02000001 [] ∧
  IllegalForms 0x02 0x02000000 0xFFFFFFFE

/-! ## Checksum Engine -/

/-- 40_crc.md R81: the table is what the eight-step loop makes of its index, and it is the 256 entries listed. -/
def Obligations.TableIsTheListedTable : Prop :=
  ∀ i : Byte,
    tableEntry i = (List.range 8).foldl (fun (c : HalfWord) _ => if c &&& 1 = 1 then (c >>> 1) ^^^ 0xA001 else c >>> 1)
      (i.zeroExtend 16) ∧
    (tableLow ++ tableHigh)[i.toNat]? = some (tableEntry i)

/-- 40_crc.md R80: the recurrence of `crc16_arc`, its value on the empty string, and that leading zero bytes do not
change it. -/
def Obligations.CrcIsTheTableRecurrence : Prop :=
  crc16Arc [] = 0 ∧
  (∀ (bs : List Byte) (b : Byte), crc16Arc (bs ++ [b]) =
    (crc16Arc bs >>> 8) ^^^ tableEntry (((crc16Arc bs ^^^ b.zeroExtend 16) &&& 0x00FF).truncate 8)) ∧
  (∀ n, crc16Arc (List.replicate n 0) = 0) ∧ ∀ n bs, crc16Arc (List.replicate n 0 ++ bs) = crc16Arc bs

/-- 40_crc.md R87: the check value of "123456789". -/
def Obligations.CrcCheckValue : Prop :=
  crc16Arc [0x31, 0x32, 0x33, 0x34, 0x35, 0x36, 0x37, 0x38, 0x39] = 0xBB3D

/-- 40_crc.md R80, R81: two byte strings that differ in exactly one byte never have the same CRC. -/
def Obligations.CrcDetectsAnySingleDamagedByte : Prop :=
  ∀ (before after : List Byte) (b b' : Byte), b ≠ b' → crc16Arc (before ++ b :: after) ≠ crc16Arc (before ++ b' :: after)

/-- 40_crc.md R82. -/
def Obligations.CrcInitZeroesTheAccumulator : Prop :=
  (∀ s : State, s.sysFault = 0 →
    exec .crcInit s = .next { s with crcAcc := 0x0000, hostOut := s.hostOut ++ [0x00000000] }) ∧
  CommandRule .crcInit 0x10000000 [] ∧ IllegalForms 0x10 0x10000000 0xFFFFFFFF

/-- 40_crc.md R83. -/
def Obligations.CrcUpdFeedsOneByte : Prop :=
  (∀ (s : State) (b : Byte) (acc : HalfWord), s.sysFault = 0 →
    acc = (s.crcAcc >>> 8) ^^^ tableEntry (((s.crcAcc ^^^ b.zeroExtend 16) &&& 0x00FF).truncate 8) →
    exec (.crcUpd b) s = .next { s with crcAcc := acc, hostOut := s.hostOut ++ [accWord acc] }) ∧
  (∀ b : Byte, CommandRule (.crcUpd b) (0x11000000 ||| b.zeroExtend 32) []) ∧ IllegalForms 0x11 0x11000000 0xFFFFFF00

/-- 40_crc.md R84. -/
def Obligations.CrcGetReadsTheAccumulator : Prop :=
  (∀ s : State, s.sysFault = 0 →
    exec .crcGet s = .next { s with hostOut := s.hostOut ++ [accWord s.crcAcc] }) ∧
  CommandRule .crcGet 0x12000000 [] ∧ IllegalForms 0x12 0x12000000 0xFFFFFFFF

/-- 40_crc.md R85: a `CRC.INIT`, `CRC.UPD` for each byte, `CRC.GET` sequence returns `crc16_arc` of the bytes, whatever
fragments and non-CRC commands are interleaved, provided no fault is latched on the way. -/
def Obligations.StreamedCrcIsTheFunction : Prop :=
  ∀ (s : State) (mid : List Instr) (bs : List Byte), s.Inv → (∀ i ∈ mid, WellFormed s.cfg i = true) →
    mid.filter isCrc = bs.map .crcUpd →
    ∃ t, execAll (.crcInit :: mid ++ [.crcGet]) s = .next t ∧
      (t.sysFault = 0 → t.crcAcc = crc16Arc bs ∧ t.hostOut.getLast? = some (accWord (crc16Arc bs)))

/-! ## Fragment Reassembler -/

/-- 41_reassembler.md R90: the sentinel, the append, the message, the capacity fault, the packet, the latched-fault
refusal. -/
def Obligations.RaFragTakesItsThreeBranches : Prop :=
  (∀ s : State, s.sysFault = 0 → s.cfg.Legal →
    exec (.raFrag [0x04]) s = .next
      { s with raColl := false, msg := [(0, 0x04)], raMsglen := 1, fragOut := s.fragOut ++ [fragWord 0x8 1 s.raWoff] }) ∧
  (∀ (s : State) (f : List Byte) (woff : Offset), s.sysFault = 0 → f ≠ [0x04] → s.raColl = true →
    s.raWoff.toNat + f.length ≤ 1029 → woff = BitVec.ofNat 11 (s.raWoff.toNat + f.length) →
    ∃ t, exec (.raFrag f) s = .next t ∧
      (∀ a, Memory.read t.rxbuf a =
        if s.raWoff.toNat ≤ a ∧ a < s.raWoff.toNat + f.length then f[a - s.raWoff.toNat]?
        else Memory.read s.rxbuf a) ∧
      t = { s with rxbuf := t.rxbuf, raWoff := woff, fragOut := s.fragOut ++ [fragWord 0x9 s.raMsglen woff] }) ∧
  (∀ (s : State) (f : List Byte), s.sysFault = 0 → f ≠ [0x04] → s.raColl = true → s.raWoff.toNat + f.length > 1029 →
    exec (.raFrag f) s = .next { s with sysFault := 1, fragOut := s.fragOut ++ [faultWord 1] }) ∧
  (∀ (s : State) (f : List Byte) (len : Offset), s.sysFault = 0 → f ≠ [0x04] → s.raColl = false →
    s.cfg.Legal → f.length ≤ s.cfg.fragMax → len.toNat = f.length →
    ∃ t, exec (.raFrag f) s = .next t ∧ (∀ a, Memory.read t.msg a = f[a]?) ∧
      t = { s with msg := t.msg, raMsglen := len, fragOut := s.fragOut ++ [fragWord 0xA len s.raWoff] }) ∧
  (∀ (cfg : Config) (f : List Byte), f.length ≤ cfg.fragMax → decode cfg (.fragment f) = .ok (.raFrag f)) ∧
  ∀ (s : State) (f : List Byte), s.sysFault ≠ 0 →
    exec (.raFrag f) s = .next { s with fragOut := s.fragOut ++ [faultWord s.sysFault] }

/-- 10_state.md R22: `eot` says that the latest received message is the sentinel; the sentinel sets it, a later message
and `RA.MSGCLR` clear it, `RA.STAT` and `RA.POLL` report it. -/
def Obligations.EotSaysTheLatestMessageIsTheSentinel : Prop :=
  (∀ s : State, eotFlag s = true ↔ s.raMsglen = 1 ∧ Memory.read s.msg 0 = some 0x04) ∧
  (∀ s : State, s.sysFault = 0 → s.cfg.Legal → ∃ t, exec (.raFrag [0x04]) s = .next t ∧ eotFlag t = true) ∧
  (∀ (s : State) (f : List Byte), s.sysFault = 0 → s.cfg.Legal → s.raColl = false → f ≠ [0x04] →
    f.length ≤ s.cfg.fragMax → ∃ t, exec (.raFrag f) s = .next t ∧ eotFlag t = false) ∧
  (∀ s : State, s.sysFault = 0 → ∃ t, exec .raMsgclr s = .next t ∧ eotFlag t = false) ∧
  (∀ s : State, s.sysFault = 0 →
    ∃ t w, exec .raStat s = .next t ∧ t.hostOut = s.hostOut ++ [w] ∧ w.getLsbD 23 = eotFlag s) ∧
  ∀ (s : State) (m : Mode), s.sysFault = 0 → s.raWoff.toNat ≤ blockLen m →
    ∃ t w, exec (.raPoll m) s = .next t ∧ t.hostOut = s.hostOut ++ [w] ∧ w.getLsbD 23 = eotFlag s

/-- 41_reassembler.md R91. -/
def Obligations.RaArmEmptiesAndCollects : Prop :=
  (∀ s : State, s.sysFault = 0 → exec .raArm s = .next
      { s with rxbuf := [], raWoff := 0, raColl := true, hostOut := s.hostOut ++ [0x00000000] }) ∧
  CommandRule .raArm 0x20000000 [] ∧ IllegalForms 0x20 0x20000000 0xFFFFFFFF

/-- 41_reassembler.md R92, 20_memory.md R44: equality completes and hands off in the same step, more is an overrun,
less changes nothing. -/
def Obligations.RaPollHandsOffAtExactlyTheBlockLength : Prop :=
  (∀ (s : State) (m : Mode), s.sysFault = 0 → s.raWoff.toNat = blockLen m →
    exec (.raPoll m) s = .next
      { s with raColl := false, hostOut := s.hostOut ++ [statWord 0x2 { s with raColl := false }] }) ∧
  (∀ (s : State) (m : Mode), s.sysFault = 0 → s.raWoff.toNat < blockLen m →
    exec (.raPoll m) s = .next { s with hostOut := s.hostOut ++ [statWord 0x1 s] }) ∧
  (∀ (s : State) (m : Mode), s.sysFault = 0 → s.raWoff.toNat > blockLen m →
    exec (.raPoll m) s = .next { s with sysFault := 2, hostOut := s.hostOut ++ [faultWord 2] }) ∧
  blockLen .short = 133 ∧ blockLen .long = 1029 ∧
  CommandRule (.raPoll .short) 0x21000000 [] ∧ CommandRule (.raPoll .long) 0x21800000 [] ∧
  IllegalForms 0x21 0x21000000 0xFF7FFFFF

/-- 41_reassembler.md R93. -/
def Obligations.RaStatReportsAndWritesNothing : Prop :=
  (∀ s : State, s.sysFault = 0 → exec .raStat s = .next { s with hostOut := s.hostOut ++ [statWord 0x0 s] }) ∧
  CommandRule .raStat 0x22000000 [] ∧ IllegalForms 0x22 0x22000000 0xFFFFFFFF

/-- 41_reassembler.md R94, 20_memory.md R33. -/
def Obligations.RaMsgrdReadsOneByteOfTheMessage : Prop :=
  (∀ (s : State) (a : Offset) (b : Byte), s.sysFault = 0 → a.toNat < s.raMsglen.toNat →
    Memory.read s.msg a.toNat = some b →
    exec (.raMsgrd a) s = .next { s with hostOut := s.hostOut ++ [byteWord b] }) ∧
  (∀ (s : State) (a : Offset), s.sysFault = 0 → s.raMsglen.toNat ≤ a.toNat →
    exec (.raMsgrd a) s = .next { s with sysFault := 6, hostOut := s.hostOut ++ [faultWord 6] }) ∧
  (∀ a : Offset, CommandRule (.raMsgrd a) (0x23000000 ||| (a.zeroExtend 32 <<< 8)) []) ∧
  IllegalForms 0x23 0x23000000 0xFFF800FF

/-- 41_reassembler.md R95. -/
def Obligations.RaMsgclrForgetsTheMessage : Prop :=
  (∀ s : State, s.sysFault = 0 → exec .raMsgclr s = .next
      { s with msg := [], raMsglen := 0, hostOut := s.hostOut ++ [0x00000000] }) ∧
  CommandRule .raMsgclr 0x24000000 [] ∧ IllegalForms 0x24 0x24000000 0xFFFFFFFF

/-- 41_reassembler.md R96, 20_memory.md R33, R45. -/
def Obligations.RaRxrdReadsOneByteAfterHandOff : Prop :=
  (∀ (s : State) (a : Offset) (b : Byte), s.sysFault = 0 → s.raColl = false → a.toNat < s.raWoff.toNat →
    Memory.read s.rxbuf a.toNat = some b →
    exec (.raRxrd a) s = .next { s with hostOut := s.hostOut ++ [byteWord b] }) ∧
  (∀ (s : State) (a : Offset), s.sysFault = 0 → s.raColl = true →
    exec (.raRxrd a) s = .next { s with sysFault := 4, hostOut := s.hostOut ++ [faultWord 4] }) ∧
  (∀ (s : State) (a : Offset), s.sysFault = 0 → s.raColl = false → s.raWoff.toNat ≤ a.toNat →
    exec (.raRxrd a) s = .next { s with sysFault := 6, hostOut := s.hostOut ++ [faultWord 6] }) ∧
  (∀ a : Offset, CommandRule (.raRxrd a) (0x25000000 ||| (a.zeroExtend 32 <<< 8)) []) ∧
  IllegalForms 0x25 0x25000000 0xFFF800FF

/-- 41_reassembler.md R97: after `RA.ARM` and fragments that make up `B`, none of them the lone sentinel byte, with any
other operations but `RA.ARM` and `RA.POLL` interleaved, `RXBUF` holds `B` whatever the split, unless a fault is
latched; and from an unlatched state no fragment raises one (`CAPACITY_OVERFLOW` is not latched), so the only faults
in the way are those of the interleaved host commands. -/
def Obligations.ReassemblyDoesNotDependOnTheSplit : Prop :=
  ∀ (s : State) (mid : List Instr) (fs : List (List Byte)), s.Inv → (∀ i ∈ mid, WellFormed s.cfg i = true) →
    mid.filterMap fragmentOf = fs → (∀ i ∈ mid, i ≠ .raArm ∧ ∀ m, i ≠ .raPoll m) → (∀ f ∈ fs, f ≠ [0x04]) →
    fs.flatten.length ≤ 1029 →
    ∃ t, execAll (.raArm :: mid) s = .next t ∧
      (s.sysFault = 0 → t.sysFault ≠ 1) ∧
      (t.sysFault = 0 → t.raWoff.toNat = fs.flatten.length ∧ t.raColl = true ∧
        Memory.readBytes t.rxbuf 0 fs.flatten.length = some fs.flatten)

/-- 20_memory.md R45: while the collector owns `RXBUF` the host's reads of it raise `NOT_HANDED_OFF`; while the host
owns it no fragment writes it. -/
def Obligations.ReceiveBufferHasOneOwner : Prop :=
  (∀ (s : State) (a : Offset) (m : Mode), s.sysFault = 0 → s.raColl = true →
    exec (.raRxrd a) s = .next { s with sysFault := 4, hostOut := s.hostOut ++ [faultWord 4] } ∧
    exec (.bcValidate m) s = .next { s with sysFault := 4, hostOut := s.hostOut ++ [faultWord 4] }) ∧
  ∀ (s t : State) (f : List Byte), s.raColl = false → exec (.raFrag f) s = .next t →
    t.rxbuf = s.rxbuf ∧ t.raWoff = s.raWoff

/-- 20_memory.md R42 (c), R44: after the hand-off nothing but `RA.ARM` changes the block, whatever is executed. -/
def Obligations.HandedOffBlockIsFrozenUntilArmed : Prop :=
  ∀ (is : List Instr) (s t : State), s.raColl = false → .raArm ∉ is → execAll is s = .next t →
    t.rxbuf = s.rxbuf ∧ t.raWoff = s.raWoff ∧ t.raColl = false

/-- 20_memory.md R33, 70_reset_and_hazards.md R186: after `RA.ARM` no byte of an earlier block can be read, even once
the sentinel has given the buffer to the host. -/
def Obligations.ArmedBufferGivesNoStaleByte : Prop :=
  ∀ (s : State) (a : Offset), s.sysFault = 0 → s.cfg.Legal →
    ∃ t, execAll [.raArm, .raFrag [0x04], .raRxrd a] s = .next t ∧ t.sysFault = 6 ∧
      t.hostOut = s.hostOut ++ [0x00000000, faultWord 6]

/-! ## Block Codec -/

/-- 42_codec.md R110: only the checksum decides; header damage shows in two diagnostic bits; nothing is written. -/
def Obligations.BcValidateDecidesByTheChecksum : Prop :=
  (∀ (s : State) (m : Mode) (marker q compl high low : Byte) (payload : List Byte), s.sysFault = 0 →
    s.raColl = false → s.raWoff.toNat = blockLen m → payload.length = payloadLen m →
    Memory.readBytes s.rxbuf 0 (blockLen m) = some ([marker, q, compl] ++ payload ++ [high, low]) →
    exec (.bcValidate m) s = .next
      { s with hostOut := s.hostOut ++ [validWord m marker q compl high low payload] }) ∧
  (∀ (s : State) (m : Mode), s.sysFault = 0 → s.raColl = true ∨ s.raWoff.toNat ≠ blockLen m →
    exec (.bcValidate m) s = .next { s with sysFault := 4, hostOut := s.hostOut ++ [faultWord 4] }) ∧
  CommandRule (.bcValidate .short) 0x30000000 [] ∧ CommandRule (.bcValidate .long) 0x30800000 [] ∧
  IllegalForms 0x30 0x30000000 0xFF7FFFFF

/-- 42_codec.md R116: the complement is the bitwise one, never borrows, and `compl_ok` is one comparison. -/
def Obligations.ComplementIsBitwise : Prop :=
  ∀ q c : Byte, complementOf q = q ^^^ 0xFF ∧ (complementOf q).toNat = 255 - q.toNat ∧
    (complOk q c = true ↔ c.toNat + q.toNat = 255)

/-- 42_codec.md R111. -/
def Obligations.BcSeqchkFollowsThePolicy : Prop :=
  (∀ (s : State) (e : Byte), s.sysFault = 0 → e.toNat = (s.bcLastseq.toNat + 1) % 256 →
    exec (.bcSeqchk e) s = .next
      { s with bcLastseq := e, bcBf := false, hostOut := s.hostOut ++ [seqWord 0x4 e e] }) ∧
  (∀ (s : State) (e q : Byte), s.sysFault = 0 → e.toNat = (s.bcLastseq.toNat + 1) % 256 → q ≠ e →
    s.bcStrict = false → exec (.bcSeqchk q) s = .next
      { s with bcLastseq := q, bcBf := false, hostOut := s.hostOut ++ [seqWord 0x5 e q] }) ∧
  (∀ (s : State) (e q : Byte), s.sysFault = 0 → e.toNat = (s.bcLastseq.toNat + 1) % 256 → q ≠ e →
    s.bcStrict = true → exec (.bcSeqchk q) s = .next { s with hostOut := s.hostOut ++ [seqWord 0x6 e q] }) ∧
  (∀ q : Byte, CommandRule (.bcSeqchk q) (0x31000000 ||| q.zeroExtend 32) []) ∧ IllegalForms 0x31 0x31000000 0xFFFFFF00

/-- 42_codec.md R111, R117: from the before-first state, blocks numbered 0, 1, 2, ... modulo 256 are continuous for
ever, under either policy. -/
def Obligations.ConsecutiveSequenceNumbersAreContinuous : Prop :=
  ∀ (n : Nat) (s : State), s.sysFault = 0 → s.bcLastseq = 0xFF →
    ∃ t, execAll ((List.range n).map fun k => .bcSeqchk (BitVec.ofNat 8 k)) s = .next t ∧
      t.hostOut = s.hostOut ++ (List.range n).map (fun k => seqWord 0x4 (BitVec.ofNat 8 k) (BitVec.ofNat 8 k)) ∧
      t.bcLastseq = BitVec.ofNat 8 (n + 255)

/-- 42_codec.md R112. -/
def Obligations.BcSeqinitRestoresBeforeFirst : Prop :=
  (∀ s : State, s.sysFault = 0 → exec .bcSeqinit s = .next
      { s with bcBf := true, bcLastseq := 0xFF, hostOut := s.hostOut ++ [0x00000000] }) ∧
  CommandRule .bcSeqinit 0x32000000 [] ∧ IllegalForms 0x32 0x32000000 0xFFFFFFFF

/-- 42_codec.md R113, 30_encoding.md R62, 20_memory.md R36: the whole block, zero-padded, with its CRC high byte first;
or nothing, if the payload is too long. -/
def Obligations.BcBuildWritesTheWholeBlock : Prop :=
  (∀ (s : State) (m : Mode) (q : Byte) (src : List Byte), s.sysFault = 0 → src.length ≤ payloadLen m →
    ∃ t, exec (.bcBuild m q src) s = .next t ∧ (∀ a, Memory.read t.txbuf a = (block m q src)[a]?) ∧
      t =
      { s with txbuf := t.txbuf, bcTxlen := BitVec.ofNat 11 (blockLen m), hostOut := s.hostOut ++ [buildWord m src] }) ∧
  (∀ (s : State) (m : Mode) (q : Byte) (src : List Byte), s.sysFault = 0 → payloadLen m < src.length →
    exec (.bcBuild m q src) s = .next { s with sysFault := 5, hostOut := s.hostOut ++ [faultWord 5] }) ∧
  payloadLen .short = 128 ∧ payloadLen .long = 1024 ∧ blockLen .short = 133 ∧ blockLen .long = 1029 ∧
  (∀ (m : Mode) (q : Byte) (src : List Byte), src.length < 2048 → CommandRule (.bcBuild m q src)
    (0x33000000#32 ||| (if m = .long then 0x00800000#32 else 0#32) ||| (BitVec.ofNat 32 src.length <<< 8)
      ||| q.zeroExtend 32)
    src) ∧
  IllegalForms 0x33 0x33000000 0xFF780000

/-- 42_codec.md R114, 20_memory.md R33. -/
def Obligations.BcTxrdReadsOneByteOfTheBuiltBlock : Prop :=
  (∀ (s : State) (a : Offset) (b : Byte), s.sysFault = 0 → a.toNat < s.bcTxlen.toNat →
    Memory.read s.txbuf a.toNat = some b →
    exec (.bcTxrd a) s = .next { s with hostOut := s.hostOut ++ [byteWord b] }) ∧
  (∀ (s : State) (a : Offset), s.sysFault = 0 → s.bcTxlen.toNat ≤ a.toNat →
    exec (.bcTxrd a) s = .next { s with sysFault := 6, hostOut := s.hostOut ++ [faultWord 6] }) ∧
  (∀ a : Offset, CommandRule (.bcTxrd a) (0x34000000 ||| (a.zeroExtend 32 <<< 8)) []) ∧
  IllegalForms 0x34 0x34000000 0xFFF800FF

/-- 42_codec.md R115: what one block builds, carried to another block in any legal fragments, polls as complete and
validates there, and the padded payload is recovered. -/
def Obligations.BuiltBlockReassemblesAndValidates : Prop :=
  ∀ (m : Mode) (q : Byte) (src : List Byte) (sender receiver : State), sender.sysFault = 0 →
    src.length ≤ payloadLen m → receiver.Inv → receiver.sysFault = 0 →
    ∃ (built : State) (B : List Byte), exec (.bcBuild m q src) sender = .next built ∧
      Memory.readBytes built.txbuf 0 (blockLen m) = some B ∧
      ∀ fs : List (List Byte), fs.flatten = B → (∀ f ∈ fs, f ≠ [0x04] ∧ f.length ≤ receiver.cfg.fragMax) →
        ∃ u v : State, execAll (.raArm :: fs.map .raFrag ++ [.raPoll m]) receiver = .next u ∧
          u.hostOut.getLast? = some (statWord 0x2 u) ∧
          exec (.bcValidate m) u = .next v ∧
          v = { u with hostOut := u.hostOut ++ [(0#14 ++ 1#1 ++ 1#1 ++ (0xFF - q) ++ q : Word)] } ∧
          Memory.readBytes v.rxbuf 3 (payloadLen m) = some (padded m src)
end

