-- ==== Sys2Proof/Laws/Encoding.lean ====
section
/-! SUPPORT. The fields of a command word: a word is its five fields, taking a field gives it back, and a word matches a
row of 30_encoding.md R53 exactly when its fields do. The opcode map is one to one. -/

namespace Sys2Proof

/-- A word from all five of its fields, `z` among them. -/
def fiveFields (op : Byte) (m : BitVec 1) (z : BitVec 4) (n : Offset) (b : Byte) : Word := op ++ m ++ z ++ n ++ b

/-- Bit `i` of a word, by the field it lies in (30_encoding.md R50). -/
theorem getLsbD_fiveFields (op : Byte) (m : BitVec 1) (z : BitVec 4) (n : Offset) (b : Byte) (i : Nat) :
    (fiveFields op m z n b).getLsbD i =
      if i < 8 then b.getLsbD i else if i < 19 then n.getLsbD (i - 8) else if i < 23 then z.getLsbD (i - 19)
      else if i < 24 then m.getLsbD (i - 23) else op.getLsbD (i - 24) := by
  simp only [fiveFields, BitVec.getLsbD_append]
  by_cases h1 : i < 8
  · simp [h1]
  · by_cases h2 : i < 19
    · simp [h1, h2, show i - 8 < 11 by omega]
    · by_cases h3 : i < 23
      · simp [h1, h2, h3, show ¬ i - 8 < 11 by omega, show i - 19 < 4 by omega,
          show i - 8 - 11 = i - 19 by omega]
      · by_cases h4 : i < 24
        · obtain rfl : i = 23 := by omega
          simp
        · simp [h1, h2, h3, h4, show ¬ i - 8 < 11 by omega, show ¬ i - 8 - 11 < 4 by omega,
            show ¬ i - 8 - 11 - 4 < 1 by omega, show i - 8 - 11 - 4 - 1 = i - 24 by omega]

theorem assemble_eq (op : Byte) (m : BitVec 1) (n : Offset) (b : Byte) : assemble op m n b = fiveFields op m 0 n b := rfl

@[simp] theorem opField_fiveFields (op : Byte) (m : BitVec 1) (z : BitVec 4) (n : Offset) (b : Byte) :
    opField (fiveFields op m z n b) = op := by
  refine BitVec.eq_of_getLsbD_eq fun i hi => ?_
  simp only [opField, BitVec.getLsbD_extractLsb', getLsbD_fiveFields]
  simp [hi, show ¬ 24 + i < 8 by omega, show ¬ 24 + i < 19 by omega, show ¬ 24 + i < 23 by omega]

@[simp] theorem modeField_fiveFields (op : Byte) (m : BitVec 1) (z : BitVec 4) (n : Offset) (b : Byte) :
    modeField (fiveFields op m z n b) = m := by
  refine BitVec.eq_of_getLsbD_eq fun i hi => ?_
  simp only [modeField, BitVec.getLsbD_extractLsb', getLsbD_fiveFields]
  simp [hi, show ¬ 23 + i < 8 by omega, show ¬ 23 + i < 19 by omega, show 23 + i < 24 by omega]

@[simp] theorem reservedField_fiveFields (op : Byte) (m : BitVec 1) (z : BitVec 4) (n : Offset) (b : Byte) :
    reservedField (fiveFields op m z n b) = z := by
  refine BitVec.eq_of_getLsbD_eq fun i hi => ?_
  simp only [reservedField, BitVec.getLsbD_extractLsb', getLsbD_fiveFields]
  simp [hi, show ¬ 19 + i < 8 by omega, show 19 + i < 23 by omega]

@[simp] theorem countField_fiveFields (op : Byte) (m : BitVec 1) (z : BitVec 4) (n : Offset) (b : Byte) :
    countField (fiveFields op m z n b) = n := by
  refine BitVec.eq_of_getLsbD_eq fun i hi => ?_
  simp only [countField, BitVec.getLsbD_extractLsb', getLsbD_fiveFields]
  simp [hi, show 8 + i < 19 by omega]

@[simp] theorem byteField_fiveFields (op : Byte) (m : BitVec 1) (z : BitVec 4) (n : Offset) (b : Byte) :
    byteField (fiveFields op m z n b) = b := by
  refine BitVec.eq_of_getLsbD_eq fun i hi => ?_
  simp only [byteField, BitVec.getLsbD_extractLsb', getLsbD_fiveFields]
  simp [hi]

@[simp] theorem opField_assemble (op : Byte) (m : BitVec 1) (n : Offset) (b : Byte) :
    opField (assemble op m n b) = op := opField_fiveFields op m 0 n b

@[simp] theorem modeField_assemble (op : Byte) (m : BitVec 1) (n : Offset) (b : Byte) :
    modeField (assemble op m n b) = m := modeField_fiveFields op m 0 n b

@[simp] theorem reservedField_assemble (op : Byte) (m : BitVec 1) (n : Offset) (b : Byte) :
    reservedField (assemble op m n b) = 0 := reservedField_fiveFields op m 0 n b

@[simp] theorem countField_assemble (op : Byte) (m : BitVec 1) (n : Offset) (b : Byte) :
    countField (assemble op m n b) = n := countField_fiveFields op m 0 n b

@[simp] theorem byteField_assemble (op : Byte) (m : BitVec 1) (n : Offset) (b : Byte) :
    byteField (assemble op m n b) = b := byteField_fiveFields op m 0 n b

/-- No bit of a word is outside its fields. -/
theorem fiveFields_eq (w : Word) :
    fiveFields (opField w) (modeField w) (reservedField w) (countField w) (byteField w) = w := by
  refine BitVec.eq_of_getLsbD_eq fun i hi => ?_
  rw [getLsbD_fiveFields]
  simp only [opField, modeField, reservedField, countField, byteField, BitVec.getLsbD_extractLsb']
  repeat' split
  all_goals first
    | simp [show i < 8 by omega]
    | simp [show i - 8 < 11 by omega, show 8 + (i - 8) = i by omega]
    | simp [show i - 19 < 4 by omega, show 19 + (i - 19) = i by omega]
    | simp [show i = 23 by omega]
    | simp [show i - 24 < 8 by omega, show 24 + (i - 24) = i by omega]

theorem fiveFields_and (op op' : Byte) (m m' : BitVec 1) (z z' : BitVec 4) (n n' : Offset) (b b' : Byte) :
    fiveFields op m z n b &&& fiveFields op' m' z' n' b' =
      fiveFields (op &&& op') (m &&& m') (z &&& z') (n &&& n') (b &&& b') := by
  refine BitVec.eq_of_getLsbD_eq fun i hi => ?_
  simp only [BitVec.getLsbD_and, getLsbD_fiveFields]
  repeat' split
  all_goals rfl

theorem fiveFields_inj {op op' : Byte} {m m' : BitVec 1} {z z' : BitVec 4} {n n' : Offset} {b b' : Byte} :
    fiveFields op m z n b = fiveFields op' m' z' n' b' ↔ op = op' ∧ m = m' ∧ z = z' ∧ n = n' ∧ b = b' := by
  constructor
  · intro h
    exact ⟨by simpa using congrArg opField h, by simpa using congrArg modeField h,
      by simpa using congrArg reservedField h, by simpa using congrArg countField h,
      by simpa using congrArg byteField h⟩
  · rintro ⟨rfl, rfl, rfl, rfl, rfl⟩; rfl

/-- The `mask` of a row (30_encoding.md R53): every bit that is no operand. -/
def rowMask (o : Op) : Word :=
  fiveFields 0xFF (if usesMode o then 0 else 1) 0xF (if usesCount o then 0 else 0x7FF) (~~~ byteMask o)

/-- The `match` of a row (30_encoding.md R53). -/
def rowMatch (o : Op) : Word := fiveFields (opCode o) 0 0 0 0

/-- A word matches a row exactly when it has the row's opcode, `z = 0` and no stray operand. -/
theorem row_matches_iff (o : Op) (w : Word) :
    w &&& rowMask o = rowMatch o ↔ opField w = opCode o ∧ reservedField w = 0 ∧ hasStrayOperand o w = false := by
  conv => lhs; rw [← fiveFields_eq w]
  simp only [rowMask, rowMatch, fiveFields_and, fiveFields_inj, hasStrayOperand]
  have e8 : ∀ x : Byte, x &&& 0xFF = x := by decide
  have e4 : ∀ x : BitVec 4, x &&& 0xF = x := by decide
  have e1 : ∀ x : BitVec 1, x &&& 1#1 = x := by decide
  have e11 : ∀ x : Offset, x &&& 2047#11 = x := fun x => BitVec.and_allOnes
  rw [e8, e4]
  cases usesMode o <;> cases usesCount o <;> simp [e1, e11] <;> tauto
/-- A word with `z = 0` is the assembly of its other fields. -/
theorem assemble_fields {w : Word} (h : reservedField w = 0) :
    assemble (opField w) (modeField w) (countField w) (byteField w) = w := by
  rw [assemble_eq, ← h, fiveFields_eq]

@[simp] theorem opOfCode_opCode (o : Op) : opOfCode (opCode o) = some o := by cases o <;> decide

theorem opCode_of_opOfCode {c : Byte} {o : Op} (h : opOfCode c = some o) : opCode o = c := by
  have := List.find?_some h
  simpa using this

@[simp] theorem modeOfBit_modeBit (m : Mode) : modeOfBit (modeBit m) = m := by cases m <;> decide

@[simp] theorem modeBit_modeOfBit (b : BitVec 1) : modeBit (modeOfBit b) = b := by
  rcases BitVec.eq_zero_or_eq_one b with rfl | rfl <;> decide

/-- What a command that decodes satisfies, said once. -/
theorem decodeCommand_eq_ok_iff (c : HostCommand) (i : Instr) :
    decodeCommand c = .ok i ↔
      ∃ o, opOfCode (opField c.word) = some o ∧ reservedField c.word = 0 ∧ hasStrayOperand o c.word = false ∧
        c.payload.length = payloadCount o c.word ∧
        instrOf o (modeOfBit (modeField c.word)) (countField c.word) (byteField c.word) c.payload = i := by
  unfold decodeCommand
  split
  · simp [*]
  · rename_i o ho
    simp only [ho, Option.some.injEq, exists_eq_left']
    by_cases h1 : reservedField c.word = 0#4
    · cases h2 : hasStrayOperand o c.word
      · by_cases h3 : c.payload.length = payloadCount o c.word <;> simp [h1, h3]
      · simp [h1]
    · simp [h1]

/-- A command word is illegal exactly when no row takes it: the payload plays no part. -/
theorem decodeCommand_illegal_iff (c : HostCommand) :
    (∃ e, decodeCommand c = .error e ∧ e.isIllegalWord = true) ↔
      ∀ o, opOfCode (opField c.word) = some o → reservedField c.word ≠ 0 ∨ hasStrayOperand o c.word = true := by
  unfold decodeCommand
  split
  · rename_i ho
    simp [ho, DecodeError.isIllegalWord]
  · rename_i o ho
    simp only [ho, Option.some.injEq, forall_eq']
    by_cases h1 : reservedField c.word = 0#4
    · cases h2 : hasStrayOperand o c.word
      · by_cases h3 : c.payload.length = payloadCount o c.word <;> simp [h1, h3, DecodeError.isIllegalWord]
      · simp [h1, DecodeError.isIllegalWord]
    · simp [h1, DecodeError.isIllegalWord]

theorem decodeFragment_eq_ok_iff (cfg : Config) (f : List Byte) (i : Instr) :
    decodeFragment cfg f = .ok i ↔ f.length ≤ cfg.fragMax ∧ .raFrag f = i := by
  unfold decodeFragment
  by_cases h : f.length ≤ cfg.fragMax <;> simp [h]

end Sys2Proof
end

