-- ==== Sys2Proof/Laws/Memory.lean ====
section
/-! SUPPORT. The laws of a byte space: what a read gives after a write or a truncation, that every operation keeps the
canonical form, and that memories in canonical form with equal reads are equal. -/

namespace Sys2Proof.Machine

@[simp] theorem read_nil (a : Nat) : Memory.read [] a = none := rfl

theorem read_cons (c : Host.Cell) (m : Memory) (a : Nat) :
    Memory.read (c :: m) a = if c.1 = a then some c.2 else Memory.read m a := rfl

theorem read_append (m m' : Memory) (a : Nat) :
    Memory.read (m ++ m') a = (Memory.read m a).or (Memory.read m' a) := by
  induction m with
  | nil => simp
  | cons c m ih =>
    simp only [List.cons_append, read_cons, ih]
    split <;> simp

/-- Keeping the cells whose offset satisfies `p` keeps exactly the reads at such offsets. -/
theorem read_filter (p : Nat → Bool) (m : Memory) (a : Nat) :
    Memory.read (m.filter fun c => p c.1) a = if p a then Memory.read m a else none := by
  induction m with
  | nil => simp
  | cons c m ih =>
    by_cases hc : c.1 = a
    · subst hc
      by_cases hp : p c.1 <;> simp_all [read_cons]
    · by_cases hp : p c.1 <;> simp_all [read_cons]

theorem read_cellsAt (bs : List Byte) (a x : Nat) :
    Memory.read (cellsAt a bs) x = if a ≤ x then bs[x - a]? else none := by
  induction bs generalizing a with
  | nil => simp [cellsAt]
  | cons b bs ih =>
    simp only [cellsAt, read_cons, ih]
    rcases Nat.lt_trichotomy a x with h | h | h
    · obtain ⟨d, rfl⟩ : ∃ d, x = a + 1 + d := ⟨x - (a + 1), by omega⟩
      have : a + 1 + d - a = d + 1 := by omega
      simp [show a ≠ a + 1 + d by omega, show a ≤ a + 1 + d by omega, this]
    · subst h; simp
    · simp [show a ≠ x by omega, show ¬ a + 1 ≤ x by omega, show ¬ a ≤ x by omega]

/-- Reading after a write: the written byte inside the written range, the old one outside it. -/
theorem read_writeBytes (m : Memory) (a : Nat) (bs : List Byte) (x : Nat) :
    Memory.read (m.writeBytes a bs) x =
      if a ≤ x ∧ x < a + bs.length then bs[x - a]? else Memory.read m x := by
  have low := read_filter (fun y => decide (y < a)) m x
  have high := read_filter (fun y => decide (a + bs.length ≤ y)) m x
  simp only [Memory.writeBytes, read_append, low, high, read_cellsAt, decide_eq_true_eq]
  by_cases h1 : x < a
  · simp [h1, show ¬ a ≤ x by omega, show ¬ a + bs.length ≤ x by omega]
  · by_cases h2 : x < a + bs.length
    · have : x - a < bs.length := by omega
      simp [h1, h2, show a ≤ x by omega, this]
    · have : bs.length ≤ x - a := by omega
      simp [h1, h2, show a ≤ x by omega, show a + bs.length ≤ x by omega, this]

theorem read_writeBytes_outside {m : Memory} {a x : Nat} {bs : List Byte} (h : x < a ∨ a + bs.length ≤ x) :
    Memory.read (m.writeBytes a bs) x = Memory.read m x := by
  rw [read_writeBytes, if_neg (by omega)]

theorem read_truncate (m : Memory) (n x : Nat) :
    Memory.read (m.truncate n) x = if x < n then Memory.read m x else none := by
  have := read_filter (fun y => decide (y < n)) m x
  simpa [Memory.truncate] using this

@[simp] theorem read_truncate_zero (m : Memory) (x : Nat) : Memory.read (m.truncate 0) x = none := by
  simp [read_truncate]

/-- After filling a space with exactly `bs`, reading it is indexing `bs`. -/
theorem read_fill (m : Memory) (bs : List Byte) (x : Nat) :
    Memory.read ((m.writeBytes 0 bs).truncate bs.length) x = bs[x]? := by
  rw [read_truncate, read_writeBytes]
  by_cases h : x < bs.length
  · simp [h]
  · simp [h]

/-! ## Runs of bytes -/

@[simp] theorem readBytes_zero (m : Memory) (a : Nat) : Memory.readBytes m a 0 = some [] := rfl

/-- A run of bytes is read exactly when each of them is. -/
theorem readBytes_eq_some_iff (m : Memory) (a n : Nat) (bs : List Byte) :
    Memory.readBytes m a n = some bs ↔ bs.length = n ∧ ∀ k < n, Memory.read m (a + k) = bs[k]? := by
  induction n generalizing a bs with
  | zero =>
    constructor
    · intro h; simp only [readBytes_zero, Option.some.injEq] at h; subst h; simp
    · intro h; simp [List.length_eq_zero_iff.1 h.1]
  | succ n ih =>
    constructor
    · intro h
      simp only [Memory.readBytes] at h
      split at h
      · rename_i b bs' hb hbs
        obtain ⟨hl, hr⟩ := (ih (a + 1) bs').1 hbs
        obtain rfl : b :: bs' = bs := Option.some.inj h
        refine ⟨by simp [hl], fun k hk => ?_⟩
        cases k with
        | zero => simpa using hb
        | succ k =>
          have := hr k (by omega)
          rw [show a + (k + 1) = a + 1 + k by omega, this]; simp
      · cases h
    · rintro ⟨hl, hr⟩
      cases bs with
      | nil => simp at hl
      | cons b bs' =>
        have hb : Memory.read m a = some b := by simpa using hr 0 (by omega)
        have hbs : Memory.readBytes m (a + 1) n = some bs' := by
          refine (ih (a + 1) bs').2 ⟨by simpa using hl, fun k hk => ?_⟩
          have := hr (k + 1) (by omega)
          rw [show a + 1 + k = a + (k + 1) by omega, this]; simp
        simp [Memory.readBytes, hb, hbs]

theorem readBytes_length {m : Memory} {a n : Nat} {bs : List Byte} (h : Memory.readBytes m a n = some bs) :
    bs.length = n := ((readBytes_eq_some_iff m a n bs).1 h).1

theorem read_of_readBytes {m : Memory} {a n k : Nat} {bs : List Byte} (h : Memory.readBytes m a n = some bs)
    (hk : k < n) : Memory.read m (a + k) = bs[k]? := ((readBytes_eq_some_iff m a n bs).1 h).2 k hk

/-- The front and the back of a run of bytes that was read are read too. -/
theorem readBytes_append {m : Memory} {a : Nat} {xs ys : List Byte} :
    Memory.readBytes m a (xs.length + ys.length) = some (xs ++ ys) ↔
      Memory.readBytes m a xs.length = some xs ∧ Memory.readBytes m (a + xs.length) ys.length = some ys := by
  simp only [readBytes_eq_some_iff, List.length_append, true_and]
  constructor
  · intro h
    refine ⟨fun k hk => ?_, fun k hk => ?_⟩
    · rw [h k (by omega), List.getElem?_append_left hk]
    · rw [Nat.add_assoc, h (xs.length + k) (by omega), List.getElem?_append_right (by omega)]
      simp
  · rintro ⟨h1, h2⟩ k hk
    by_cases hx : k < xs.length
    · rw [h1 k hx, List.getElem?_append_left hx]
    · have := h2 (k - xs.length) (by omega)
      rw [Nat.add_assoc, show xs.length + (k - xs.length) = k by omega] at this
      rw [this, List.getElem?_append_right (by omega)]

/-- A filled space reads back whole. -/
theorem readBytes_fill (m : Memory) (bs : List Byte) :
    Memory.readBytes ((m.writeBytes 0 bs).truncate bs.length) 0 bs.length = some bs :=
  (readBytes_eq_some_iff _ _ _ _).2 ⟨rfl, fun k _ => by rw [Nat.zero_add, read_fill]⟩

/-- A run of bytes reads the same in any space with the same bytes there. -/
theorem readBytes_congr {m m' : Memory} {a n : Nat}
    (h : ∀ k < n, Memory.read m' (a + k) = Memory.read m (a + k)) :
    Memory.readBytes m' a n = Memory.readBytes m a n := by
  induction n generalizing a with
  | zero => rfl
  | succ n ih =>
    have h0 := h 0 (by omega)
    have hs := ih (a := a + 1) fun k hk => by
      have := h (k + 1) (by omega)
      rwa [show a + (k + 1) = a + 1 + k by omega] at this
    simp only [Nat.add_zero] at h0
    simp only [Memory.readBytes, h0, hs]

/-! ## The canonical form -/

theorem map_fst_cellsAt (a : Nat) (bs : List Byte) :
    (cellsAt a bs).map Prod.fst = List.range' a bs.length := by
  induction bs generalizing a with
  | nil => rfl
  | cons b bs ih => simp [cellsAt, ih, List.range'_succ]

theorem mem_cellsAt {a : Nat} {bs : List Byte} {c : Host.Cell} (h : c ∈ cellsAt a bs) :
    a ≤ c.1 ∧ c.1 < a + bs.length := by
  have : c.1 ∈ (cellsAt a bs).map Prod.fst := List.mem_map_of_mem h
  rw [map_fst_cellsAt] at this
  simpa [List.mem_range'_1] using this

theorem wf_cellsAt (a : Nat) (bs : List Byte) : Memory.wf (cellsAt a bs) := by
  induction bs generalizing a with
  | nil => exact List.Pairwise.nil
  | cons b bs ih =>
    exact List.Pairwise.cons (fun c hc => by have := mem_cellsAt hc; simp; omega) (ih (a + 1))

theorem wf_filter {m : Memory} (p : Host.Cell → Bool) (h : m.wf) : Memory.wf (m.filter p) := h.filter p

/-- Writing keeps the canonical form. -/
theorem wf_writeBytes {m : Memory} (h : m.wf) (a : Nat) (bs : List Byte) : Memory.wf (m.writeBytes a bs) := by
  refine List.pairwise_append.2 ⟨List.pairwise_append.2 ⟨wf_filter _ h, wf_cellsAt a bs, ?_⟩, wf_filter _ h, ?_⟩
  · intro c hc d hd
    have h1 : c.1 < a := by simpa using (List.mem_filter.1 hc).2
    have h2 := mem_cellsAt hd
    omega
  · intro c hc d hd
    have h2 : a + bs.length ≤ d.1 := by simpa using (List.mem_filter.1 hd).2
    rcases List.mem_append.1 hc with hc | hc
    · have h1 : c.1 < a := by simpa using (List.mem_filter.1 hc).2
      omega
    · have h1 := mem_cellsAt hc
      omega

/-- Truncating keeps the canonical form. -/
theorem wf_truncate {m : Memory} (h : m.wf) (n : Nat) : Memory.wf (m.truncate n) := wf_filter _ h

theorem read_none_of_lt {m : Memory} {a : Nat} (h : ∀ c ∈ m, a < c.1) : Memory.read m a = none := by
  induction m with
  | nil => rfl
  | cons c m ih =>
    have := h c (by simp)
    rw [read_cons, if_neg (by omega), ih fun d hd => h d (by simp [hd])]

/-- Two memories in canonical form with equal reads are equal. -/
theorem wf_ext {m m' : Memory} (h : m.wf) (h' : m'.wf) (e : ∀ a, m.read a = m'.read a) : m = m' := by
  induction m generalizing m' with
  | nil =>
    cases m' with
    | nil => rfl
    | cons c m' => have := e c.1; simp [read_cons] at this
  | cons c m ih =>
    cases m' with
    | nil => have := e c.1; simp [read_cons] at this
    | cons d m' =>
      have hc := List.pairwise_cons.1 h
      have hd := List.pairwise_cons.1 h'
      have hcd : c.1 = d.1 := by
        rcases Nat.lt_trichotomy c.1 d.1 with hl | he | hl
        · have := e c.1
          rw [read_cons, if_pos rfl, read_cons, if_neg (by omega),
            read_none_of_lt fun x hx => by have := hd.1 x hx; omega] at this
          cases this
        · exact he
        · have := e d.1
          rw [read_cons, if_neg (by omega), read_cons (c := d), if_pos rfl,
            read_none_of_lt fun x hx => by have := hc.1 x hx; omega] at this
          cases this
      have hv : c.2 = d.2 := by
        have := e c.1
        rw [read_cons, if_pos rfl, read_cons, if_pos hcd.symm] at this
        exact Option.some.inj this
      have : m = m' := by
        refine ih hc.2 hd.2 fun a => ?_
        by_cases ha : a = c.1
        · rw [ha, read_none_of_lt hc.1, read_none_of_lt fun x hx => by have := hd.1 x hx; omega]
        · have := e a
          rwa [read_cons, if_neg (Ne.symm ha), read_cons, if_neg (by omega)] at this
      rw [this, Prod.ext hcd hv]

/-! ## A space filled up to its length register -/

theorem holds_nil : Memory.Holds [] 0 := rfl

theorem holds_cellsAt (bs : List Byte) : Memory.Holds (cellsAt 0 bs) bs.length := by
  simp [Memory.Holds, map_fst_cellsAt, List.range_eq_range']

theorem wf_of_holds {m : Memory} {n : Nat} (h : m.Holds n) : m.wf := by
  have : (m.map Prod.fst).Pairwise (· < ·) := h ▸ List.pairwise_lt_range
  exact List.pairwise_map.1 this

theorem lt_of_mem_holds {m : Memory} {n : Nat} (h : m.Holds n) {c : Host.Cell} (hc : c ∈ m) : c.1 < n := by
  have : c.1 ∈ m.map Prod.fst := List.mem_map_of_mem hc
  rw [h] at this
  exact List.mem_range.1 this

theorem isSome_read (m : Memory) (a : Nat) : (Memory.read m a).isSome ↔ a ∈ m.map Prod.fst := by
  induction m with
  | nil => simp
  | cons c m ih =>
    simp only [read_cons, List.map_cons, List.mem_cons]
    by_cases h : c.1 = a
    · simp [h]
    · simp [h, ih, Ne.symm h]

/-- In a filled space exactly the offsets below the length are readable. -/
theorem isSome_read_of_holds {m : Memory} {n : Nat} (h : m.Holds n) (a : Nat) :
    (Memory.read m a).isSome ↔ a < n := by
  rw [isSome_read, h, List.mem_range]

theorem exists_read_of_holds {m : Memory} {n a : Nat} (h : m.Holds n) (ha : a < n) :
    ∃ b, Memory.read m a = some b := Option.isSome_iff_exists.1 ((isSome_read_of_holds h a).2 ha)

/-- In a filled space every run of bytes below the length is readable. -/
theorem exists_readBytes_of_holds {m : Memory} {n a k : Nat} (h : m.Holds n) (hk : a + k ≤ n) :
    ∃ bs, Memory.readBytes m a k = some bs := by
  induction k generalizing a with
  | zero => exact ⟨[], rfl⟩
  | succ k ih =>
    obtain ⟨b, hb⟩ := exists_read_of_holds h (show a < n by omega)
    obtain ⟨bs, hbs⟩ := ih (a := a + 1) (by omega)
    exact ⟨b :: bs, by simp [Memory.readBytes, hb, hbs]⟩

/-- Writing at the length of a filled space appends to it. -/
theorem holds_append {m : Memory} {n : Nat} (h : m.Holds n) (bs : List Byte) :
    Memory.Holds (m.writeBytes n bs) (n + bs.length) := by
  have low : m.filter (fun c => decide (c.1 < n)) = m :=
    List.filter_eq_self.2 fun c hc => by simpa using lt_of_mem_holds h hc
  have high : m.filter (fun c => decide (n + bs.length ≤ c.1)) = [] :=
    List.filter_eq_nil_iff.2 fun c hc => by have := lt_of_mem_holds h hc; simp; omega
  simp only [Memory.Holds, Memory.writeBytes, low, high, List.append_nil, List.map_append, map_fst_cellsAt]
  rw [h, List.range_eq_range', List.range_eq_range']
  simpa using List.range'_append_1 (s := 0) (m := n) (n := bs.length)

/-- Filling a space with exactly `bs` leaves it filled up to `len(bs)`, whatever it held. -/
theorem fill_eq_cellsAt (m : Memory) (bs : List Byte) :
    (m.writeBytes 0 bs).truncate bs.length = cellsAt 0 bs := by
  have low : m.filter (fun c => decide (c.1 < 0)) = [] := List.filter_eq_nil_iff.2 fun c _ => by simp
  have mid : (cellsAt 0 bs).filter (fun c => decide (c.1 < bs.length)) = cellsAt 0 bs :=
    List.filter_eq_self.2 fun c hc => by have := mem_cellsAt hc; simp; omega
  have high : (m.filter (fun c => decide (0 + bs.length ≤ c.1))).filter (fun c => decide (c.1 < bs.length)) = [] :=
    List.filter_eq_nil_iff.2 fun c hc => by have := (List.mem_filter.1 hc).2; simp at this ⊢; omega
  simp only [Memory.truncate, Memory.writeBytes, List.filter_append, low, mid, high]
  simp

theorem holds_fill (m : Memory) (bs : List Byte) :
    Memory.Holds ((m.writeBytes 0 bs).truncate bs.length) bs.length := by
  rw [fill_eq_cellsAt]; exact holds_cellsAt bs

theorem truncate_zero (m : Memory) : m.truncate 0 = [] := List.filter_eq_nil_iff.2 fun c _ => by simp

end Sys2Proof.Machine
end

