-- ==== Sys2Proof/Laws/State.lean ====
section
/-! SUPPORT. What each named update does to each field of State, so that no later proof unfolds an update. -/

namespace Sys2Proof.Machine

/-! ## Giving a response -/

@[simp] theorem answer_crcAcc (p : Port) (w : Word) (s : State) : (answer p w s).crcAcc = s.crcAcc := by cases p <;> rfl
@[simp] theorem answer_rxbuf (p : Port) (w : Word) (s : State) : (answer p w s).rxbuf = s.rxbuf := by cases p <;> rfl
@[simp] theorem answer_raWoff (p : Port) (w : Word) (s : State) : (answer p w s).raWoff = s.raWoff := by cases p <;> rfl
@[simp] theorem answer_raColl (p : Port) (w : Word) (s : State) : (answer p w s).raColl = s.raColl := by cases p <;> rfl
@[simp] theorem answer_msg (p : Port) (w : Word) (s : State) : (answer p w s).msg = s.msg := by cases p <;> rfl
@[simp] theorem answer_raMsglen (p : Port) (w : Word) (s : State) : (answer p w s).raMsglen = s.raMsglen := by cases p <;> rfl
@[simp] theorem answer_bcBf (p : Port) (w : Word) (s : State) : (answer p w s).bcBf = s.bcBf := by cases p <;> rfl
@[simp] theorem answer_bcLastseq (p : Port) (w : Word) (s : State) : (answer p w s).bcLastseq = s.bcLastseq := by cases p <;> rfl
@[simp] theorem answer_bcStrict (p : Port) (w : Word) (s : State) : (answer p w s).bcStrict = s.bcStrict := by cases p <;> rfl
@[simp] theorem answer_txbuf (p : Port) (w : Word) (s : State) : (answer p w s).txbuf = s.txbuf := by cases p <;> rfl
@[simp] theorem answer_bcTxlen (p : Port) (w : Word) (s : State) : (answer p w s).bcTxlen = s.bcTxlen := by cases p <;> rfl
@[simp] theorem answer_sysFault (p : Port) (w : Word) (s : State) : (answer p w s).sysFault = s.sysFault := by cases p <;> rfl
@[simp] theorem answer_cfg (p : Port) (w : Word) (s : State) : (answer p w s).cfg = s.cfg := by cases p <;> rfl
@[simp] theorem answer_hostIn (p : Port) (w : Word) (s : State) : (answer p w s).hostIn = s.hostIn := by cases p <;> rfl
@[simp] theorem answer_fragIn (p : Port) (w : Word) (s : State) : (answer p w s).fragIn = s.fragIn := by cases p <;> rfl
@[simp] theorem answer_turns (p : Port) (w : Word) (s : State) : (answer p w s).turns = s.turns := by cases p <;> rfl
@[simp] theorem answer_host_hostOut (w : Word) (s : State) : (answer .host w s).hostOut = s.hostOut ++ [w] := rfl
@[simp] theorem answer_fragment_hostOut (w : Word) (s : State) : (answer .fragment w s).hostOut = s.hostOut := rfl
@[simp] theorem answer_fragment_fragOut (w : Word) (s : State) : (answer .fragment w s).fragOut = s.fragOut ++ [w] := rfl
@[simp] theorem answer_host_fragOut (w : Word) (s : State) : (answer .host w s).fragOut = s.fragOut := rfl

/-! ## Replacing the bytes of a space -/

@[simp] theorem setSpace_crcAcc (sp : Space) (m : Memory) (s : State) : (setSpace sp m s).crcAcc = s.crcAcc := by cases sp <;> rfl
@[simp] theorem setSpace_rxbuf_rxbuf (m : Memory) (s : State) : (setSpace .rxbuf m s).rxbuf = m := rfl
@[simp] theorem setSpace_txbuf_rxbuf (m : Memory) (s : State) : (setSpace .txbuf m s).rxbuf = s.rxbuf := rfl
@[simp] theorem setSpace_msg_rxbuf (m : Memory) (s : State) : (setSpace .msg m s).rxbuf = s.rxbuf := rfl
@[simp] theorem setSpace_raWoff (sp : Space) (m : Memory) (s : State) : (setSpace sp m s).raWoff = s.raWoff := by cases sp <;> rfl
@[simp] theorem setSpace_raColl (sp : Space) (m : Memory) (s : State) : (setSpace sp m s).raColl = s.raColl := by cases sp <;> rfl
@[simp] theorem setSpace_rxbuf_msg (m : Memory) (s : State) : (setSpace .rxbuf m s).msg = s.msg := rfl
@[simp] theorem setSpace_txbuf_msg (m : Memory) (s : State) : (setSpace .txbuf m s).msg = s.msg := rfl
@[simp] theorem setSpace_msg_msg (m : Memory) (s : State) : (setSpace .msg m s).msg = m := rfl
@[simp] theorem setSpace_raMsglen (sp : Space) (m : Memory) (s : State) : (setSpace sp m s).raMsglen = s.raMsglen := by cases sp <;> rfl
@[simp] theorem setSpace_bcBf (sp : Space) (m : Memory) (s : State) : (setSpace sp m s).bcBf = s.bcBf := by cases sp <;> rfl
@[simp] theorem setSpace_bcLastseq (sp : Space) (m : Memory) (s : State) : (setSpace sp m s).bcLastseq = s.bcLastseq := by cases sp <;> rfl
@[simp] theorem setSpace_bcStrict (sp : Space) (m : Memory) (s : State) : (setSpace sp m s).bcStrict = s.bcStrict := by cases sp <;> rfl
@[simp] theorem setSpace_rxbuf_txbuf (m : Memory) (s : State) : (setSpace .rxbuf m s).txbuf = s.txbuf := rfl
@[simp] theorem setSpace_txbuf_txbuf (m : Memory) (s : State) : (setSpace .txbuf m s).txbuf = m := rfl
@[simp] theorem setSpace_msg_txbuf (m : Memory) (s : State) : (setSpace .msg m s).txbuf = s.txbuf := rfl
@[simp] theorem setSpace_bcTxlen (sp : Space) (m : Memory) (s : State) : (setSpace sp m s).bcTxlen = s.bcTxlen := by cases sp <;> rfl
@[simp] theorem setSpace_sysFault (sp : Space) (m : Memory) (s : State) : (setSpace sp m s).sysFault = s.sysFault := by cases sp <;> rfl
@[simp] theorem setSpace_cfg (sp : Space) (m : Memory) (s : State) : (setSpace sp m s).cfg = s.cfg := by cases sp <;> rfl
@[simp] theorem setSpace_hostIn (sp : Space) (m : Memory) (s : State) : (setSpace sp m s).hostIn = s.hostIn := by cases sp <;> rfl
@[simp] theorem setSpace_fragIn (sp : Space) (m : Memory) (s : State) : (setSpace sp m s).fragIn = s.fragIn := by cases sp <;> rfl
@[simp] theorem setSpace_turns (sp : Space) (m : Memory) (s : State) : (setSpace sp m s).turns = s.turns := by cases sp <;> rfl
@[simp] theorem setSpace_hostOut (sp : Space) (m : Memory) (s : State) : (setSpace sp m s).hostOut = s.hostOut := by cases sp <;> rfl
@[simp] theorem setSpace_fragOut (sp : Space) (m : Memory) (s : State) : (setSpace sp m s).fragOut = s.fragOut := by cases sp <;> rfl

/-! ## Setting a length register -/

@[simp] theorem setLength_crcAcc (sp : Space) (n : Nat) (s : State) : (setLength sp n s).crcAcc = s.crcAcc := by cases sp <;> rfl
@[simp] theorem setLength_rxbuf_rxbuf (n : Nat) (s : State) : (setLength .rxbuf n s).rxbuf = Memory.truncate s.rxbuf n := rfl
@[simp] theorem setLength_txbuf_rxbuf (n : Nat) (s : State) : (setLength .txbuf n s).rxbuf = s.rxbuf := rfl
@[simp] theorem setLength_msg_rxbuf (n : Nat) (s : State) : (setLength .msg n s).rxbuf = s.rxbuf := rfl
@[simp] theorem setLength_rxbuf_raWoff (n : Nat) (s : State) : (setLength .rxbuf n s).raWoff = BitVec.ofNat 11 n := rfl
@[simp] theorem setLength_txbuf_raWoff (n : Nat) (s : State) : (setLength .txbuf n s).raWoff = s.raWoff := rfl
@[simp] theorem setLength_msg_raWoff (n : Nat) (s : State) : (setLength .msg n s).raWoff = s.raWoff := rfl
@[simp] theorem setLength_raColl (sp : Space) (n : Nat) (s : State) : (setLength sp n s).raColl = s.raColl := by cases sp <;> rfl
@[simp] theorem setLength_rxbuf_msg (n : Nat) (s : State) : (setLength .rxbuf n s).msg = s.msg := rfl
@[simp] theorem setLength_txbuf_msg (n : Nat) (s : State) : (setLength .txbuf n s).msg = s.msg := rfl
@[simp] theorem setLength_msg_msg (n : Nat) (s : State) : (setLength .msg n s).msg = Memory.truncate s.msg n := rfl
@[simp] theorem setLength_rxbuf_raMsglen (n : Nat) (s : State) : (setLength .rxbuf n s).raMsglen = s.raMsglen := rfl
@[simp] theorem setLength_txbuf_raMsglen (n : Nat) (s : State) : (setLength .txbuf n s).raMsglen = s.raMsglen := rfl
@[simp] theorem setLength_msg_raMsglen (n : Nat) (s : State) : (setLength .msg n s).raMsglen = BitVec.ofNat 11 n := rfl
@[simp] theorem setLength_bcBf (sp : Space) (n : Nat) (s : State) : (setLength sp n s).bcBf = s.bcBf := by cases sp <;> rfl
@[simp] theorem setLength_bcLastseq (sp : Space) (n : Nat) (s : State) : (setLength sp n s).bcLastseq = s.bcLastseq := by cases sp <;> rfl
@[simp] theorem setLength_bcStrict (sp : Space) (n : Nat) (s : State) : (setLength sp n s).bcStrict = s.bcStrict := by cases sp <;> rfl
@[simp] theorem setLength_rxbuf_txbuf (n : Nat) (s : State) : (setLength .rxbuf n s).txbuf = s.txbuf := rfl
@[simp] theorem setLength_txbuf_txbuf (n : Nat) (s : State) : (setLength .txbuf n s).txbuf = Memory.truncate s.txbuf n := rfl
@[simp] theorem setLength_msg_txbuf (n : Nat) (s : State) : (setLength .msg n s).txbuf = s.txbuf := rfl
@[simp] theorem setLength_rxbuf_bcTxlen (n : Nat) (s : State) : (setLength .rxbuf n s).bcTxlen = s.bcTxlen := rfl
@[simp] theorem setLength_txbuf_bcTxlen (n : Nat) (s : State) : (setLength .txbuf n s).bcTxlen = BitVec.ofNat 11 n := rfl
@[simp] theorem setLength_msg_bcTxlen (n : Nat) (s : State) : (setLength .msg n s).bcTxlen = s.bcTxlen := rfl
@[simp] theorem setLength_sysFault (sp : Space) (n : Nat) (s : State) : (setLength sp n s).sysFault = s.sysFault := by cases sp <;> rfl
@[simp] theorem setLength_cfg (sp : Space) (n : Nat) (s : State) : (setLength sp n s).cfg = s.cfg := by cases sp <;> rfl
@[simp] theorem setLength_hostIn (sp : Space) (n : Nat) (s : State) : (setLength sp n s).hostIn = s.hostIn := by cases sp <;> rfl
@[simp] theorem setLength_fragIn (sp : Space) (n : Nat) (s : State) : (setLength sp n s).fragIn = s.fragIn := by cases sp <;> rfl
@[simp] theorem setLength_turns (sp : Space) (n : Nat) (s : State) : (setLength sp n s).turns = s.turns := by cases sp <;> rfl
@[simp] theorem setLength_hostOut (sp : Space) (n : Nat) (s : State) : (setLength sp n s).hostOut = s.hostOut := by cases sp <;> rfl
@[simp] theorem setLength_fragOut (sp : Space) (n : Nat) (s : State) : (setLength sp n s).fragOut = s.fragOut := by cases sp <;> rfl

/-! ## Reset -/

@[simp] theorem resetBlock_crcAcc (s : State) : (resetBlock s).crcAcc = 0 := rfl
@[simp] theorem resetBlock_rxbuf (s : State) : (resetBlock s).rxbuf = [] := rfl
@[simp] theorem resetBlock_raWoff (s : State) : (resetBlock s).raWoff = 0 := rfl
@[simp] theorem resetBlock_raColl (s : State) : (resetBlock s).raColl = false := rfl
@[simp] theorem resetBlock_msg (s : State) : (resetBlock s).msg = [] := rfl
@[simp] theorem resetBlock_raMsglen (s : State) : (resetBlock s).raMsglen = 0 := rfl
@[simp] theorem resetBlock_bcBf (s : State) : (resetBlock s).bcBf = true := rfl
@[simp] theorem resetBlock_bcLastseq (s : State) : (resetBlock s).bcLastseq = 0xFF := rfl
@[simp] theorem resetBlock_bcStrict (s : State) : (resetBlock s).bcStrict = false := rfl
@[simp] theorem resetBlock_txbuf (s : State) : (resetBlock s).txbuf = [] := rfl
@[simp] theorem resetBlock_bcTxlen (s : State) : (resetBlock s).bcTxlen = 0 := rfl
@[simp] theorem resetBlock_sysFault (s : State) : (resetBlock s).sysFault = 0 := rfl
@[simp] theorem resetBlock_cfg (s : State) : (resetBlock s).cfg = s.cfg := rfl
@[simp] theorem resetBlock_hostIn (s : State) : (resetBlock s).hostIn = s.hostIn := rfl
@[simp] theorem resetBlock_fragIn (s : State) : (resetBlock s).fragIn = s.fragIn := rfl
@[simp] theorem resetBlock_turns (s : State) : (resetBlock s).turns = s.turns := rfl
@[simp] theorem resetBlock_hostOut (s : State) : (resetBlock s).hostOut = s.hostOut := rfl
@[simp] theorem resetBlock_fragOut (s : State) : (resetBlock s).fragOut = s.fragOut := rfl
@[simp] theorem resetOf_crcAcc (c : Config) : (State.resetOf c).crcAcc = 0 := rfl
@[simp] theorem resetOf_rxbuf (c : Config) : (State.resetOf c).rxbuf = [] := rfl
@[simp] theorem resetOf_raWoff (c : Config) : (State.resetOf c).raWoff = 0 := rfl
@[simp] theorem resetOf_raColl (c : Config) : (State.resetOf c).raColl = false := rfl
@[simp] theorem resetOf_msg (c : Config) : (State.resetOf c).msg = [] := rfl
@[simp] theorem resetOf_raMsglen (c : Config) : (State.resetOf c).raMsglen = 0 := rfl
@[simp] theorem resetOf_bcBf (c : Config) : (State.resetOf c).bcBf = true := rfl
@[simp] theorem resetOf_bcLastseq (c : Config) : (State.resetOf c).bcLastseq = 0xFF := rfl
@[simp] theorem resetOf_bcStrict (c : Config) : (State.resetOf c).bcStrict = false := rfl
@[simp] theorem resetOf_txbuf (c : Config) : (State.resetOf c).txbuf = [] := rfl
@[simp] theorem resetOf_bcTxlen (c : Config) : (State.resetOf c).bcTxlen = 0 := rfl
@[simp] theorem resetOf_sysFault (c : Config) : (State.resetOf c).sysFault = 0 := rfl
@[simp] theorem resetOf_cfg (c : Config) : (State.resetOf c).cfg = c := rfl
@[simp] theorem resetOf_hostIn (c : Config) : (State.resetOf c).hostIn = [] := rfl
@[simp] theorem resetOf_fragIn (c : Config) : (State.resetOf c).fragIn = [] := rfl
@[simp] theorem resetOf_turns (c : Config) : (State.resetOf c).turns = [] := rfl
@[simp] theorem resetOf_hostOut (c : Config) : (State.resetOf c).hostOut = [] := rfl
@[simp] theorem resetOf_fragOut (c : Config) : (State.resetOf c).fragOut = [] := rfl

/-! ## Reading a space -/

@[simp] theorem spaceOf_rxbuf (s : State) : spaceOf s .rxbuf = s.rxbuf := rfl
@[simp] theorem spaceOf_txbuf (s : State) : spaceOf s .txbuf = s.txbuf := rfl
@[simp] theorem spaceOf_msg (s : State) : spaceOf s .msg = s.msg := rfl
@[simp] theorem capacityOf_rxbuf (s : State) : capacityOf s .rxbuf = 1029 := rfl
@[simp] theorem capacityOf_txbuf (s : State) : capacityOf s .txbuf = 1029 := rfl
@[simp] theorem capacityOf_msg (s : State) : capacityOf s .msg = s.cfg.fragMax := rfl

end Sys2Proof.Machine
end

