-- ==== Sys2Proof/Laws/Ops.lean ====
section
/-! SUPPORT. What each shared operation can do, said once: provers cite these instead of unfolding the operations. -/

namespace Sys2Proof.Machine

/-! ## Responses and faults -/

theorem respond_eq (p : Port) (c : Code) (data : BitVec 28) (s : State) :
    respond p c data s = .next (answer p (responseWord c data) s) := rfl

theorem answerFault_eq (p : Port) (s : State) :
    answerFault p s = .next (answer p (responseWord .fault (faultData s.sysFault)) s) := rfl

/-- The word of a `FAULT` response is `0xF0000000 | SYS_FAULT` (60_exceptions.md R142). -/
theorem responseWord_fault (code : BitVec 4) :
    responseWord .fault (faultData code) = 0xF0000000#32 ||| code.zeroExtend 32 := by
  revert code; decide

theorem faultBits_ne_zero (c : FaultCode) : faultBits c ≠ 0 := by cases c <;> decide

/-- Raising a fault while none is latched latches its code and writes nothing else. -/
theorem raiseFault_unlatched {p : Port} {c : FaultCode} {s : State} (h : s.sysFault = 0) :
    raiseFault p c s =
      .next (answer p (responseWord .fault (faultData (faultBits c))) { s with sysFault := faultBits c }) := by
  simp [raiseFault, answerFault_eq, h]

/-- Raising a fault while one is latched changes nothing: the first fault's code stays. -/
theorem raiseFault_latched {p : Port} {c : FaultCode} {s : State} (h : s.sysFault ≠ 0) :
    raiseFault p c s = answerFault p s := by
  have h' : ¬ s.sysFault = 0#4 := h
  simp [raiseFault, h']

theorem guarded_unlatched {p : Port} {s : State} {body : State → Result} (h : s.sysFault = 0) :
    guarded p s body = body s := if_pos h

theorem guarded_latched {p : Port} {s : State} {body : State → Result} (h : s.sysFault ≠ 0) :
    guarded p s body = answerFault p s := if_neg h

/-- A guarded operation that answers a next state was refused with the latched code, or ran its body. -/
theorem guarded_next {p : Port} {s t : State} {body : State → Result} (h : guarded p s body = .next t) :
    (s.sysFault ≠ 0 ∧ t = answer p (responseWord .fault (faultData s.sysFault)) s) ∨
      (s.sysFault = 0 ∧ body s = .next t) := by
  by_cases h0 : s.sysFault = 0
  · exact .inr ⟨h0, by rwa [guarded_unlatched h0] at h⟩
  · rw [guarded_latched h0, answerFault_eq] at h
    exact .inl ⟨h0, (Host.Outcome.next.inj h).symm⟩

/-! ## Byte spaces -/

theorem withByte_some {sp : Space} {a : Nat} {s : State} {b : Byte} {body : Byte → Result}
    (h : Memory.read (spaceOf s sp) a = some b) : withByte sp a s body = body b := by simp [withByte, h]

theorem withByte_next {sp : Space} {a : Nat} {s t : State} {body : Byte → Result}
    (h : withByte sp a s body = .next t) : ∃ b, Memory.read (spaceOf s sp) a = some b ∧ body b = .next t := by
  unfold withByte at h
  split at h
  · exact ⟨_, ‹_›, h⟩
  · cases h

theorem withBytes_some {sp : Space} {a n : Nat} {s : State} {bs : List Byte} {body : List Byte → Result}
    (h : Memory.readBytes (spaceOf s sp) a n = some bs) : withBytes sp a n s body = body bs := by simp [withBytes, h]

theorem withBytes_next {sp : Space} {a n : Nat} {s t : State} {body : List Byte → Result}
    (h : withBytes sp a n s body = .next t) :
    ∃ bs, Memory.readBytes (spaceOf s sp) a n = some bs ∧ body bs = .next t := by
  unfold withBytes at h
  split at h
  · exact ⟨_, ‹_›, h⟩
  · cases h

theorem withWrite_fits {sp : Space} {a : Nat} {bs : List Byte} {s : State} {body : State → Result}
    (h : a + bs.length ≤ capacityOf s sp) :
    withWrite sp a bs s body = body (setSpace sp (Memory.writeBytes (spaceOf s sp) a bs) s) := if_pos h

theorem withWrite_next {sp : Space} {a : Nat} {bs : List Byte} {s t : State} {body : State → Result}
    (h : withWrite sp a bs s body = .next t) :
    a + bs.length ≤ capacityOf s sp ∧ body (setSpace sp (Memory.writeBytes (spaceOf s sp) a bs) s) = .next t := by
  unfold withWrite at h
  split at h
  · exact ⟨‹_›, h⟩
  · cases h

theorem withFill_fits {sp : Space} {bs : List Byte} {s : State} {body : State → Result}
    (h : bs.length ≤ capacityOf s sp) :
    withFill sp bs s body =
      body (setLength sp bs.length (setSpace sp (Memory.writeBytes (spaceOf s sp) 0 bs) s)) :=
  withWrite_fits (by omega)

theorem withFill_next {sp : Space} {bs : List Byte} {s t : State} {body : State → Result}
    (h : withFill sp bs s body = .next t) :
    bs.length ≤ capacityOf s sp ∧
      body (setLength sp bs.length (setSpace sp (Memory.writeBytes (spaceOf s sp) 0 bs) s)) = .next t := by
  obtain ⟨h1, h2⟩ := withWrite_next h
  exact ⟨by omega, h2⟩

/-- A filled `TXBUF` holds exactly the bytes it was filled with. -/
theorem filled_txbuf (bs : List Byte) (s : State) :
    setLength .txbuf bs.length (setSpace .txbuf (Memory.writeBytes (spaceOf s .txbuf) 0 bs) s) =
      { s with txbuf := cellsAt 0 bs, bcTxlen := BitVec.ofNat 11 bs.length } := by
  simp only [setLength, setSpace, spaceOf, fill_eq_cellsAt]

/-- A filled `MSG` holds exactly the bytes it was filled with. -/
theorem filled_msg (bs : List Byte) (s : State) :
    setLength .msg bs.length (setSpace .msg (Memory.writeBytes (spaceOf s .msg) 0 bs) s) =
      { s with msg := cellsAt 0 bs, raMsglen := BitVec.ofNat 11 bs.length } := by
  simp only [setLength, setSpace, spaceOf, fill_eq_cellsAt]

/-- A read command that answers a next state raised `READ_UNWRITTEN`, or gave the byte and changed nothing. -/
theorem readCommand_next {sp : Space} {n a : Offset} {s t : State} (h : readCommand sp n a s = .next t) :
    (n.toNat ≤ a.toNat ∧ raiseFault .host .readUnwritten s = .next t) ∨
      (a.toNat < n.toNat ∧ ∃ b, Memory.read (spaceOf s sp) a.toNat = some b ∧
        t = answer .host (responseWord .ok (byteData b)) s) := by
  unfold readCommand at h
  split at h
  · exact .inl ⟨‹_›, h⟩
  · obtain ⟨b, hb, ht⟩ := withByte_next h
    exact .inr ⟨by omega, b, hb, (Host.Outcome.next.inj ht).symm⟩

/-! ## Blocks -/

theorem length_paddedPayload {m : Mode} {src : List Byte} (h : src.length ≤ payloadLen m) :
    (paddedPayload m src).length = payloadLen m := by simp [paddedPayload]; omega

theorem length_builtBlock {m : Mode} {q : Byte} {src : List Byte} (h : src.length ≤ payloadLen m) :
    (builtBlock m q src).length = blockLen m := by
  simp [builtBlock, length_paddedPayload h, blockLen]; omega

theorem blockLen_le (m : Mode) : blockLen m ≤ 1029 := by cases m <;> decide

/-- The two bytes of a trailer, the high one first, are the CRC (20_memory.md R36). -/
theorem crcHigh_append_crcLow (c : HalfWord) : crcHigh c ++ crcLow c = c := by
  refine BitVec.eq_of_getLsbD_eq fun i hi => ?_
  simp only [crcHigh, crcLow, BitVec.getLsbD_append, BitVec.getLsbD_extractLsb']
  split
  · simp [*]
  · simp [show i - 8 < 8 by omega, show 8 + (i - 8) = i by omega]

theorem complementOf_eq_xor (b : Byte) : complementOf b = b ^^^ 0xFF := by revert b; decide

end Sys2Proof.Machine
end

