-- ==== Sys2Proof/Laws/Exec.lean ====
section
/-! SUPPORT. What each operation that answers a next state has done: refused it for a latched fault, raised a fault, or
run. One inversion lemma per operation, guards included. -/

namespace Sys2Proof.Machine

/-- `t` is `s` after a refusal with the latched code (60_exceptions.md R143). -/
abbrev RefusedTo (p : Port) (s t : State) : Prop :=
  s.sysFault ≠ 0 ∧ t = answer p (responseWord .fault (faultData s.sysFault)) s

/-- `t` is `s` after raising `c` (60_exceptions.md R142). -/
abbrev RaisedTo (p : Port) (c : FaultCode) (s t : State) : Prop :=
  s.sysFault = 0 ∧ t = answer p (responseWord .fault (faultData (faultBits c))) { s with sysFault := faultBits c }

/-- `t` is `s'` after a response. -/
abbrev AnsweredTo (p : Port) (c : Code) (data : BitVec 28) (s' t : State) : Prop :=
  t = answer p (responseWord c data) s'

theorem respond_next {p : Port} {c : Code} {data : BitVec 28} {s t : State} (h : respond p c data s = .next t) :
    AnsweredTo p c data s t := (Host.Outcome.next.inj h).symm

theorem raiseFault_next {p : Port} {c : FaultCode} {s t : State} (h0 : s.sysFault = 0)
    (h : raiseFault p c s = .next t) : RaisedTo p c s t := by
  rw [raiseFault_unlatched h0] at h
  exact ⟨h0, (Host.Outcome.next.inj h).symm⟩

theorem execSysStat_next {s t : State} (h : execSysStat s = .next t) : AnsweredTo .host .ok (sysData s) s t :=
  respond_next h

theorem execSysCfg_next {b : Bool} {s t : State} (h : execSysCfg b s = .next t) :
    RefusedTo .host s t ∨ s.sysFault = 0 ∧ AnsweredTo .host .ok noData { s with bcStrict := b } t := by
  rcases guarded_next h with hr | ⟨h0, hb⟩
  · exact .inl hr
  · exact .inr ⟨h0, respond_next hb⟩

theorem execCrcInit_next {s t : State} (h : execCrcInit s = .next t) :
    RefusedTo .host s t ∨ s.sysFault = 0 ∧ AnsweredTo .host .ok noData { s with crcAcc := 0 } t := by
  rcases guarded_next h with hr | ⟨h0, hb⟩
  · exact .inl hr
  · exact .inr ⟨h0, respond_next hb⟩

theorem execCrcUpd_next {b : Byte} {s t : State} (h : execCrcUpd b s = .next t) :
    RefusedTo .host s t ∨ s.sysFault = 0 ∧
      AnsweredTo .host .ok (crcData (crcStep s.crcAcc b)) { s with crcAcc := crcStep s.crcAcc b } t := by
  rcases guarded_next h with hr | ⟨h0, hb⟩
  · exact .inl hr
  · exact .inr ⟨h0, respond_next hb⟩

theorem execCrcGet_next {s t : State} (h : execCrcGet s = .next t) :
    RefusedTo .host s t ∨ s.sysFault = 0 ∧ AnsweredTo .host .ok (crcData s.crcAcc) s t := by
  rcases guarded_next h with hr | ⟨h0, hb⟩
  · exact .inl hr
  · exact .inr ⟨h0, respond_next hb⟩

theorem execRaArm_next {s t : State} (h : execRaArm s = .next t) :
    RefusedTo .host s t ∨ s.sysFault = 0 ∧
      AnsweredTo .host .ok noData { s with rxbuf := [], raWoff := 0, raColl := true } t := by
  rcases guarded_next h with hr | ⟨h0, hb⟩
  · exact .inl hr
  · exact .inr ⟨h0, by simpa [setLength, truncate_zero] using respond_next hb⟩

theorem execRaPoll_next {m : Mode} {s t : State} (h : execRaPoll m s = .next t) :
    RefusedTo .host s t ∨ (s.raWoff.toNat > blockLen m ∧ RaisedTo .host .blockOverrun s t) ∨
      (s.sysFault = 0 ∧ s.raWoff.toNat = blockLen m ∧
        AnsweredTo .host .complete (statData { s with raColl := false }) { s with raColl := false } t) ∨
      (s.sysFault = 0 ∧ s.raWoff.toNat < blockLen m ∧ AnsweredTo .host .incomplete (statData s) s t) := by
  rcases guarded_next h with hr | ⟨h0, hb⟩
  · exact .inl hr
  · split at hb
    · exact .inr (.inl ⟨‹_›, raiseFault_next h0 hb⟩)
    · split at hb
      · exact .inr (.inr (.inl ⟨h0, ‹_›, respond_next hb⟩))
      · exact .inr (.inr (.inr ⟨h0, by omega, respond_next hb⟩))

theorem execRaStat_next {s t : State} (h : execRaStat s = .next t) :
    RefusedTo .host s t ∨ s.sysFault = 0 ∧ AnsweredTo .host .ok (statData s) s t := by
  rcases guarded_next h with hr | ⟨h0, hb⟩
  · exact .inl hr
  · exact .inr ⟨h0, respond_next hb⟩

theorem execRaMsgrd_next {a : Offset} {s t : State} (h : execRaMsgrd a s = .next t) :
    RefusedTo .host s t ∨ (s.raMsglen.toNat ≤ a.toNat ∧ RaisedTo .host .readUnwritten s t) ∨
      (s.sysFault = 0 ∧ a.toNat < s.raMsglen.toNat ∧ ∃ b, Memory.read s.msg a.toNat = some b ∧
        AnsweredTo .host .ok (byteData b) s t) := by
  rcases guarded_next h with hr | ⟨h0, hb⟩
  · exact .inl hr
  · rcases readCommand_next hb with ⟨ha, hx⟩ | ⟨ha, hx⟩
    · exact .inr (.inl ⟨ha, raiseFault_next h0 hx⟩)
    · exact .inr (.inr ⟨h0, ha, hx⟩)

theorem execRaMsgclr_next {s t : State} (h : execRaMsgclr s = .next t) :
    RefusedTo .host s t ∨ s.sysFault = 0 ∧ AnsweredTo .host .ok noData { s with msg := [], raMsglen := 0 } t := by
  rcases guarded_next h with hr | ⟨h0, hb⟩
  · exact .inl hr
  · exact .inr ⟨h0, by simpa [setLength, truncate_zero] using respond_next hb⟩

theorem execRaRxrd_next {a : Offset} {s t : State} (h : execRaRxrd a s = .next t) :
    RefusedTo .host s t ∨ (s.raColl = true ∧ RaisedTo .host .notHandedOff s t) ∨
      (s.raColl = false ∧ s.raWoff.toNat ≤ a.toNat ∧ RaisedTo .host .readUnwritten s t) ∨
      (s.sysFault = 0 ∧ s.raColl = false ∧ a.toNat < s.raWoff.toNat ∧ ∃ b, Memory.read s.rxbuf a.toNat = some b ∧
        AnsweredTo .host .ok (byteData b) s t) := by
  rcases guarded_next h with hr | ⟨h0, hb⟩
  · exact .inl hr
  · split at hb
    · exact .inr (.inl ⟨‹_›, raiseFault_next h0 hb⟩)
    · have hc : s.raColl = false := by simpa using ‹¬ s.raColl = true›
      rcases readCommand_next hb with ⟨ha, hx⟩ | ⟨ha, hx⟩
      · exact .inr (.inr (.inl ⟨hc, ha, raiseFault_next h0 hx⟩))
      · exact .inr (.inr (.inr ⟨h0, hc, ha, hx⟩))

theorem execBcValidate_next {m : Mode} {s t : State} (h : execBcValidate m s = .next t) :
    RefusedTo .host s t ∨
      ((s.raColl = true ∨ s.raWoff.toNat ≠ blockLen m) ∧ RaisedTo .host .notHandedOff s t) ∨
      (s.sysFault = 0 ∧ s.raColl = false ∧ s.raWoff.toNat = blockLen m ∧
        ∃ marker seq compl payload high low, Memory.read s.rxbuf 0 = some marker ∧
          Memory.read s.rxbuf 1 = some seq ∧ Memory.read s.rxbuf 2 = some compl ∧
          Memory.readBytes s.rxbuf 3 (payloadLen m) = some payload ∧
          Memory.read s.rxbuf (3 + payloadLen m) = some high ∧
          Memory.read s.rxbuf (3 + payloadLen m + 1) = some low ∧
          ((crc16Arc payload ≠ high ++ low ∧ AnsweredTo .host .crcMismatch (crcData (crc16Arc payload)) s t) ∨
            (crc16Arc payload = high ++ low ∧ AnsweredTo .host .ok (validData m marker seq compl) s t))) := by
  rcases guarded_next h with hr | ⟨h0, hb⟩
  · exact .inl hr
  · split at hb
    · exact .inr (.inl ⟨‹_›, raiseFault_next h0 hb⟩)
    · have hc : s.raColl = false ∧ s.raWoff.toNat = blockLen m := by
        simpa [not_or] using ‹¬ (s.raColl = true ∨ s.raWoff.toNat ≠ blockLen m)›
      obtain ⟨marker, h1, hb⟩ := withByte_next hb
      obtain ⟨seq, h2, hb⟩ := withByte_next hb
      obtain ⟨compl, h3, hb⟩ := withByte_next hb
      obtain ⟨payload, h4, hb⟩ := withBytes_next hb
      obtain ⟨high, h5, hb⟩ := withByte_next hb
      obtain ⟨low, h6, hb⟩ := withByte_next hb
      refine .inr (.inr ⟨h0, hc.1, hc.2, marker, seq, compl, payload, high, low, h1, h2, h3, h4, h5, h6, ?_⟩)
      split at hb
      · exact .inl ⟨‹_›, respond_next hb⟩
      · exact .inr ⟨not_not.1 ‹_›, respond_next hb⟩

theorem execBcSeqchk_next {r : Byte} {s t : State} (h : execBcSeqchk r s = .next t) :
    RefusedTo .host s t ∨
      (s.sysFault = 0 ∧ r = expectedSeq s ∧
        AnsweredTo .host .seqOk (seqData (expectedSeq s) r) { s with bcLastseq := r, bcBf := false } t) ∨
      (s.sysFault = 0 ∧ r ≠ expectedSeq s ∧ s.bcStrict = false ∧
        AnsweredTo .host .seqGap (seqData (expectedSeq s) r) { s with bcLastseq := r, bcBf := false } t) ∨
      (s.sysFault = 0 ∧ r ≠ expectedSeq s ∧ s.bcStrict = true ∧
        AnsweredTo .host .seqReject (seqData (expectedSeq s) r) s t) := by
  rcases guarded_next h with hr | ⟨h0, hb⟩
  · exact .inl hr
  · simp only at hb
    split at hb
    · exact .inr (.inl ⟨h0, ‹_›, respond_next hb⟩)
    · split at hb
      · exact .inr (.inr (.inl ⟨h0, ‹_›, ‹_›, respond_next hb⟩))
      · exact .inr (.inr (.inr ⟨h0, ‹_›, by simpa using ‹¬ s.bcStrict = false›, respond_next hb⟩))

theorem execBcSeqinit_next {s t : State} (h : execBcSeqinit s = .next t) :
    RefusedTo .host s t ∨ s.sysFault = 0 ∧ AnsweredTo .host .ok noData { s with bcBf := true, bcLastseq := 0xFF } t := by
  rcases guarded_next h with hr | ⟨h0, hb⟩
  · exact .inl hr
  · exact .inr ⟨h0, respond_next hb⟩

theorem execBcBuild_next {m : Mode} {q : Byte} {src : List Byte} {s t : State} (h : execBcBuild m q src s = .next t) :
    RefusedTo .host s t ∨ (src.length > payloadLen m ∧ RaisedTo .host .buildOversize s t) ∨
      (s.sysFault = 0 ∧ src.length ≤ payloadLen m ∧
        AnsweredTo .host .ok (buildData (crc16Arc (paddedPayload m src)) (BitVec.ofNat 11 (blockLen m)))
          { s with txbuf := cellsAt 0 (builtBlock m q src), bcTxlen := BitVec.ofNat 11 (blockLen m) } t) := by
  rcases guarded_next h with hr | ⟨h0, hb⟩
  · exact .inl hr
  · split at hb
    · exact .inr (.inl ⟨‹_›, raiseFault_next h0 hb⟩)
    · have hl : src.length ≤ payloadLen m := by omega
      have hx := respond_next (withFill_next hb).2
      rw [filled_txbuf, length_builtBlock hl] at hx
      exact .inr (.inr ⟨h0, hl, hx⟩)

theorem execBcTxrd_next {a : Offset} {s t : State} (h : execBcTxrd a s = .next t) :
    RefusedTo .host s t ∨ (s.bcTxlen.toNat ≤ a.toNat ∧ RaisedTo .host .readUnwritten s t) ∨
      (s.sysFault = 0 ∧ a.toNat < s.bcTxlen.toNat ∧ ∃ b, Memory.read s.txbuf a.toNat = some b ∧
        AnsweredTo .host .ok (byteData b) s t) := by
  rcases guarded_next h with hr | ⟨h0, hb⟩
  · exact .inl hr
  · rcases readCommand_next hb with ⟨ha, hx⟩ | ⟨ha, hx⟩
    · exact .inr (.inl ⟨ha, raiseFault_next h0 hx⟩)
    · exact .inr (.inr ⟨h0, ha, hx⟩)

theorem execRaFrag_next {f : List Byte} {s t : State} (h : execRaFrag f s = .next t) :
    RefusedTo .fragment s t ∨
      (s.sysFault = 0 ∧ f = [eotByte] ∧ 1 ≤ s.cfg.fragMax ∧ ∃ s', s' =
          { s with raColl := false, msg := cellsAt 0 f, raMsglen := BitVec.ofNat 11 f.length } ∧
        AnsweredTo .fragment .fragEot (fragData s') s' t) ∨
      (f ≠ [eotByte] ∧ s.raColl = true ∧ s.raWoff.toNat + f.length > 1029 ∧
        RaisedTo .fragment .capacityOverflow s t) ∨
      (s.sysFault = 0 ∧ f ≠ [eotByte] ∧ s.raColl = true ∧ s.raWoff.toNat + f.length ≤ 1029 ∧ ∃ s', s' =
          { s with
            rxbuf := Memory.writeBytes s.rxbuf s.raWoff.toNat f
            raWoff := BitVec.ofNat 11 (s.raWoff.toNat + f.length) } ∧
        AnsweredTo .fragment .fragAppended (fragData s') s' t) ∨
      (s.sysFault = 0 ∧ f ≠ [eotByte] ∧ s.raColl = false ∧ f.length ≤ s.cfg.fragMax ∧ ∃ s', s' =
          { s with msg := cellsAt 0 f, raMsglen := BitVec.ofNat 11 f.length } ∧
        AnsweredTo .fragment .fragMessage (fragData s') s' t) := by
  rcases guarded_next h with hr | ⟨h0, hb⟩
  · exact .inl hr
  · split at hb
    · subst f
      obtain ⟨hl, hx⟩ := withFill_next hb
      rw [filled_msg] at hx
      exact .inr (.inl ⟨h0, rfl, by simpa using hl, _, rfl, respond_next hx⟩)
    · split at hb
      · split at hb
        · exact .inr (.inr (.inl ⟨‹_›, ‹_›, ‹_›, raiseFault_next h0 hb⟩))
        · rename_i hn
          exact .inr (.inr (.inr (.inl ⟨h0, ‹_›, ‹_›, by simpa [blockCapacity] using hn, _, rfl,
            respond_next (withWrite_next hb).2⟩)))
      · obtain ⟨hl, hx⟩ := withFill_next hb
        rw [filled_msg] at hx
        exact .inr (.inr (.inr (.inr ⟨h0, ‹_›, by simpa using ‹¬ s.raColl = true›, by simpa using hl, _, rfl,
          respond_next hx⟩)))

end Sys2Proof.Machine
end

