-- ==== Sys2Proof/Laws/PerInstr.lean ====
section
/-! SUPPORT. Statements made per instruction: what an operation is encoded as is a legal packet (30_encoding.md R53). -/

namespace Sys2Proof.Laws.EncodesLegally

/-- The word an operation is encoded as takes the row with its own opcode, with `z = 0` and no stray operand. -/
def Statement (i : Instr) : Prop :=
  ∀ c, encode i = .command c →
    ∃ o, opOfCode (opField c.word) = some o ∧ reservedField c.word = 0 ∧ hasStrayOperand o c.word = false

/-- A command assembled from the fields its row uses is legal. -/
theorem assembled (o : Op) (m : BitVec 1) (n : Offset) (b : Byte) (p : List Byte) (c : HostCommand)
    (hc : Packet.command { word := assemble (opCode o) m n b, payload := p } = .command c)
    (hm : usesMode o = true ∨ m = 0) (hn : usesCount o = true ∨ n = 0) (hb : b &&& ~~~ byteMask o = 0) :
    ∃ o, opOfCode (opField c.word) = some o ∧ reservedField c.word = 0 ∧ hasStrayOperand o c.word = false := by
  obtain rfl := Packet.command.inj hc
  refine ⟨o, by simp, by simp, ?_⟩
  simp only [hasStrayOperand, modeField_assemble, countField_assemble, byteField_assemble, hb]
  rcases hm with hm | rfl <;> rcases hn with hn | rfl <;> simp [*]

theorem sysStat : Statement (.sysStat) := fun c h =>
  assembled .sysStat _ _ _ _ c h (.inr rfl) (.inr rfl) (by decide)

theorem sysCfg (strict : Bool) : Statement (.sysCfg strict) := fun c h =>
  assembled .sysCfg _ _ _ _ c h (.inr rfl) (.inr rfl) (by cases strict <;> decide)

theorem crcInit : Statement (.crcInit) := fun c h =>
  assembled .crcInit _ _ _ _ c h (.inr rfl) (.inr rfl) (by decide)

theorem crcUpd (b : Byte) : Statement (.crcUpd b) := fun c h =>
  assembled .crcUpd _ _ _ _ c h (.inr rfl) (.inr rfl) (by simp [byteMask])

theorem crcGet : Statement (.crcGet) := fun c h =>
  assembled .crcGet _ _ _ _ c h (.inr rfl) (.inr rfl) (by decide)

theorem raArm : Statement (.raArm) := fun c h =>
  assembled .raArm _ _ _ _ c h (.inr rfl) (.inr rfl) (by decide)

theorem raPoll (m : Mode) : Statement (.raPoll m) := fun c h =>
  assembled .raPoll _ _ _ _ c h (.inl rfl) (.inr rfl) (by decide)

theorem raStat : Statement (.raStat) := fun c h =>
  assembled .raStat _ _ _ _ c h (.inr rfl) (.inr rfl) (by decide)

theorem raMsgrd (a : Offset) : Statement (.raMsgrd a) := fun c h =>
  assembled .raMsgrd _ _ _ _ c h (.inr rfl) (.inl rfl) (by decide)

theorem raMsgclr : Statement (.raMsgclr) := fun c h =>
  assembled .raMsgclr _ _ _ _ c h (.inr rfl) (.inr rfl) (by decide)

theorem raRxrd (a : Offset) : Statement (.raRxrd a) := fun c h =>
  assembled .raRxrd _ _ _ _ c h (.inr rfl) (.inl rfl) (by decide)

theorem bcValidate (m : Mode) : Statement (.bcValidate m) := fun c h =>
  assembled .bcValidate _ _ _ _ c h (.inl rfl) (.inr rfl) (by decide)

theorem bcSeqchk (q : Byte) : Statement (.bcSeqchk q) := fun c h =>
  assembled .bcSeqchk _ _ _ _ c h (.inr rfl) (.inr rfl) (by simp [byteMask])

theorem bcSeqinit : Statement (.bcSeqinit) := fun c h =>
  assembled .bcSeqinit _ _ _ _ c h (.inr rfl) (.inr rfl) (by decide)

theorem bcBuild (m : Mode) (q : Byte) (src : List Byte) : Statement (.bcBuild m q src) := fun c h =>
  assembled .bcBuild _ _ _ _ c h (.inl rfl) (.inl rfl) (by simp [byteMask])

theorem bcTxrd (a : Offset) : Statement (.bcTxrd a) := fun c h =>
  assembled .bcTxrd _ _ _ _ c h (.inr rfl) (.inl rfl) (by decide)

theorem raFrag (f : List Byte) : Statement (.raFrag f) := fun _ h => nomatch h

end Sys2Proof.Laws.EncodesLegally
end

