-- ==== Sys2Proof/Laws/Step.lean ====
section
/-! SUPPORT. What the ports and the step can do, said once. -/

namespace Sys2Proof.Machine

/-- An illegal command word was refused for a latched fault, or raised `ILLEGAL_COMMAND`. -/
theorem illegalCommand_next {s t : State} (h : illegalCommand s = .next t) :
    RefusedTo .host s t ∨ RaisedTo .host .illegalCommand s t := by
  rcases guarded_next h with hr | ⟨h0, hb⟩
  · exact .inl hr
  · exact .inr (raiseFault_next h0 hb)

/-- The host port ran the operation its command decodes to, or met an illegal word. -/
theorem serveCommand_next {c : HostCommand} {s t : State} (h : serveCommand c s = .next t) :
    (∃ i, decodeCommand c = .ok i ∧ exec i s = .next t) ∨
      (∃ e, decodeCommand c = .error e ∧ e.isIllegalWord = true ∧ illegalCommand s = .next t) := by
  unfold serveCommand at h
  split at h
  · exact .inl ⟨_, ‹_›, h⟩
  · split at h
    · exact .inr ⟨_, ‹_›, ‹_›, h⟩
    · cases h

/-- The fragment port ran `RA.FRAG` on a fragment it can carry. -/
theorem serveFragment_next {f : List Byte} {s t : State} (h : serveFragment f s = .next t) :
    f.length ≤ s.cfg.fragMax ∧ exec (.raFrag f) s = .next t := by
  unfold serveFragment at h
  split at h
  · rename_i i hi
    obtain ⟨hl, rfl⟩ := (decodeFragment_eq_ok_iff _ _ _).1 hi
    exact ⟨hl, h⟩
  · cases h

/-- A step that answers a next state did nothing, served one port's oldest packet, or reset the block. -/
theorem step_next {s t : State} (h : step s = .next t) :
    (s.turns = [] ∧ t = s) ∨
      (∃ ts, s.turns = .host :: ts ∧ s.hostIn = [] ∧ t = { s with turns := ts }) ∨
      (∃ ts c cs, s.turns = .host :: ts ∧ s.hostIn = c :: cs ∧
        serveCommand c { s with turns := ts, hostIn := cs } = .next t) ∨
      (∃ ts, s.turns = .transport :: ts ∧ s.fragIn = [] ∧ t = { s with turns := ts }) ∨
      (∃ ts f fs, s.turns = .transport :: ts ∧ s.fragIn = f :: fs ∧
        serveFragment f { s with turns := ts, fragIn := fs } = .next t) ∨
      (∃ ts, s.turns = .environment :: ts ∧ t = resetBlock { s with turns := ts }) := by
  unfold step takeTurn at h
  split at h
  · exact .inl ⟨‹_›, (Host.Outcome.next.inj h).symm⟩
  · rename_i ts hts
    unfold hostTurn at h
    split at h
    · exact .inr (.inl ⟨ts, hts, ‹_›, (Host.Outcome.next.inj h).symm⟩)
    · exact .inr (.inr (.inl ⟨ts, _, _, hts, ‹_›, h⟩))
  · rename_i ts hts
    unfold transportTurn at h
    split at h
    · exact .inr (.inr (.inr (.inl ⟨ts, hts, ‹_›, (Host.Outcome.next.inj h).symm⟩)))
    · exact .inr (.inr (.inr (.inr (.inl ⟨ts, _, _, hts, ‹_›, h⟩))))
  · rename_i ts hts
    exact .inr (.inr (.inr (.inr (.inr ⟨ts, hts, (Host.Outcome.next.inj h).symm⟩))))

end Sys2Proof.Machine
end

