-- ==== Sys2Proof/Laws/Words.lean ====
section
/-! SUPPORT. Each response word as one row of bit fields (30_encoding.md R56, R58). -/

namespace Sys2Proof.Machine

theorem responseWord_byteData (b : Byte) : responseWord .ok (byteData b) = (0#24 ++ b : Word) := by
  revert b; decide

theorem responseWord_crcData (c : HalfWord) : responseWord .ok (crcData c) = (0#16 ++ c : Word) := by
  refine BitVec.eq_of_getLsbD_eq fun i hi => ?_
  simp only [responseWord, crcData, codeBits, BitVec.getLsbD_append]
  repeat' split
  all_goals first | rfl | (simp; done) | (exfalso; omega)

theorem responseWord_crcMismatch (c : HalfWord) :
    responseWord .crcMismatch (crcData c) = (0x3#4 ++ 0#12 ++ c : Word) := by
  refine BitVec.eq_of_getLsbD_eq fun i hi => ?_
  simp only [responseWord, crcData, codeBits, BitVec.getLsbD_append]
  repeat' split
  all_goals first | rfl | (simp; done) | (exfalso; omega)

theorem responseWord_fragData (c : Code) (s : State) :
    responseWord c (fragData s) = (codeBits c ++ 0#6 ++ s.raMsglen ++ s.raWoff : Word) := by
  refine BitVec.eq_of_getLsbD_eq fun i hi => ?_
  simp only [responseWord, fragData, BitVec.getLsbD_append]
  repeat' split
  all_goals first | rfl | (simp; done) | (exfalso; omega)

theorem responseWord_statData (c : Code) (s : State) :
    responseWord c (statData s) = (codeBits c ++ 0#4 ++ BitVec.ofBool (eotFlag s) ++ BitVec.ofBool s.raColl
      ++ s.raMsglen ++ s.raWoff : Word) := by
  refine BitVec.eq_of_getLsbD_eq fun i hi => ?_
  simp only [responseWord, statData, BitVec.getLsbD_append]
  repeat' split
  all_goals first | rfl | (simp; done) | (exfalso; omega)

theorem responseWord_sysData (s : State) :
    responseWord .ok (sysData s) = (0#7 ++ s.bcTxlen ++ s.bcLastseq ++ BitVec.ofBool s.bcBf
      ++ BitVec.ofBool s.bcStrict ++ s.sysFault : Word) := by
  refine BitVec.eq_of_getLsbD_eq fun i hi => ?_
  simp only [responseWord, sysData, codeBits, BitVec.getLsbD_append]
  repeat' split
  all_goals first | rfl | (simp; done) | (exfalso; omega)

theorem responseWord_validData (m : Mode) (marker seq compl : Byte) :
    responseWord .ok (validData m marker seq compl) = (0#14 ++ BitVec.ofBool (markerOk m marker)
      ++ BitVec.ofBool (complOk seq compl) ++ compl ++ seq : Word) := by
  refine BitVec.eq_of_getLsbD_eq fun i hi => ?_
  simp only [responseWord, validData, codeBits, BitVec.getLsbD_append]
  repeat' split
  all_goals first | rfl | (simp; done) | (exfalso; omega)

theorem responseWord_seqData (c : Code) (expected received : Byte) :
    responseWord c (seqData expected received) = (codeBits c ++ 0#12 ++ received ++ expected : Word) := by
  refine BitVec.eq_of_getLsbD_eq fun i hi => ?_
  simp only [responseWord, seqData, BitVec.getLsbD_append]
  repeat' split
  all_goals first | rfl | (simp; done) | (exfalso; omega)

theorem responseWord_buildData (c : HalfWord) (txlen : Offset) :
    responseWord .ok (buildData c txlen) = (0#5 ++ txlen ++ c : Word) := by
  refine BitVec.eq_of_getLsbD_eq fun i hi => ?_
  simp only [responseWord, buildData, codeBits, BitVec.getLsbD_append]
  repeat' split
  all_goals first | rfl | (simp; done) | (exfalso; omega)

/-- The code of a response is its bits 31:28. -/
theorem code_of_responseWord (c : Code) (data : BitVec 28) : (responseWord c data >>> 28).truncate 4 = codeBits c := by
  refine BitVec.eq_of_getLsbD_eq fun i hi => ?_
  have : (responseWord c data).getLsbD (28 + i) = (codeBits c).getLsbD i := by
    rw [responseWord, BitVec.getLsbD_append, if_neg (by omega), Nat.add_sub_cancel_left]
  simpa [hi] using this

end Sys2Proof.Machine
end

