-- ==== Sys2Proof/Tests/Slice0.lean ====
section
/-! SUPPORT. Tests. Expected values are of spec/95_test_vectors.md (V and P numbers) or written out from the rule named;
the second half shows, for every statement with hypotheses, states and operands that meet them. -/

namespace Sys2Proof.Tests

open Sys2Proof Sys2Proof.Machine Sys2Proof.Spec

/-! ## Helpers -/

/-- The last response of the host port after a step that answers a next state. -/
def hostAnswer : Result → Option Word
  | .next t => t.hostOut.getLast?
  | _ => none

/-- The last response of the fragment port after a step that answers a next state. -/
def fragAnswer : Result → Option Word
  | .next t => t.fragOut.getLast?
  | _ => none

/-- Whether a step answers a next state with a property. -/
def nextIs (p : State → Bool) : Result → Bool
  | .next t => p t
  | _ => false

/-- The host port serves a word without payload bytes. -/
def serve (w : Word) (s : State) : Result := serveCommand ⟨w, []⟩ s

/-- A block with `bs` in `RXBUF`, collecting or handed off. -/
def received (coll : Bool) (bs : List Byte) : State :=
  { State.reset with rxbuf := cellsAt 0 bs, raWoff := BitVec.ofNat 11 bs.length, raColl := coll }

/-- A block with `bs` recorded as the latest received message. -/
def messaged (bs : List Byte) : State := { State.reset with msg := cellsAt 0 bs, raMsglen := BitVec.ofNat 11 bs.length }

/-- A block with `bs` in `TXBUF`. -/
def built (bs : List Byte) : State := { State.reset with txbuf := cellsAt 0 bs, bcTxlen := BitVec.ofNat 11 bs.length }

/-- A block that has latched `BLOCK_OVERRUN`. -/
def faulted : State := { State.reset with sysFault := 2 }

/-- "hello world". -/
def hello : List Byte := [0x68, 0x65, 0x6C, 0x6C, 0x6F, 0x20, 0x77, 0x6F, 0x72, 0x6C, 0x64]

/-- The data block of V4, with the bytes V20 gives it. -/
def helloBlock : List Byte := [0x01, 0x01, 0xFE] ++ hello ++ List.replicate 117 0 ++ [0x8E, 0x1C]

/-! ## Well-formedness: each check refuses an ill-formed term -/

theorem test_build_of_2048_bytes_is_ill_formed :
    WellFormed Config.suggested (.bcBuild .long 0 (List.replicate 2048 0)) = false := by decide +kernel

theorem test_build_of_2047_bytes_is_well_formed :
    WellFormed Config.suggested (.bcBuild .short 0 (List.replicate 2047 0)) = true := by decide +kernel

theorem test_fragment_longer_than_fragMax_is_ill_formed :
    WellFormed Config.suggested (.raFrag (List.replicate 21 0)) = false := by decide

theorem test_fragment_of_fragMax_bytes_is_well_formed :
    WellFormed Config.suggested (.raFrag (List.replicate 20 0)) = true := by decide

/-! ## Decoding: words of 30_encoding.md R53 for every constructor, one per family field by field (R50) -/

theorem test_decode_system :
    decodeTableWord 32 0x01000000 = some .sysStat ∧ decodeTableWord 32 0x02000000 = some (.sysCfg false) ∧
    decodeTableWord 32 (0x02#8 ++ 0#1 ++ 0#4 ++ 0#11 ++ 0x01#8).toNat = some (.sysCfg true) := by decide

theorem test_decode_checksum :
    decodeTableWord 32 0x10000000 = some .crcInit ∧ decodeTableWord 32 0x110000FF = some (.crcUpd 0xFF) ∧
    decodeTableWord 32 0x12000000 = some .crcGet ∧
    decodeTableWord 32 (0x11#8 ++ 0#1 ++ 0#4 ++ 0#11 ++ 0b00110001#8).toNat = some (.crcUpd 0x31) := by decide

theorem test_decode_reassembler :
    decodeTableWord 32 0x20000000 = some .raArm ∧ decodeTableWord 32 0x21000000 = some (.raPoll .short) ∧
    decodeTableWord 32 0x21800000 = some (.raPoll .long) ∧ decodeTableWord 32 0x22000000 = some .raStat ∧
    decodeTableWord 32 0x23000100 = some (.raMsgrd 1) ∧ decodeTableWord 32 0x24000000 = some .raMsgclr ∧
    decodeTableWord 32 0x25008400 = some (.raRxrd 132) ∧
    decodeTableWord 32 (0x25#8 ++ 0#1 ++ 0#4 ++ 0b10000000101#11 ++ 0#8).toNat = some (.raRxrd 1029) := by decide

theorem test_decode_codec :
    decodeTableWord 32 0x30000000 = some (.bcValidate .short) ∧ decodeTableWord 32 0x30800000 = some (.bcValidate .long) ∧
    decodeTableWord 32 0x31000005 = some (.bcSeqchk 5) ∧ decodeTableWord 32 0x32000000 = some .bcSeqinit ∧
    decodeTableWord 32 0x330000FF = some (.bcBuild .short 0xFF []) ∧ decodeTableWord 32 0x34000D00 = some (.bcTxrd 13) ∧
    decodeTableWord 32 (0x33#8 ++ 1#1 ++ 0#4 ++ 3#11 ++ 0x02#8).toNat = some (.bcBuild .long 2 [0, 0, 0]) := by decide

theorem test_decode_fragment :
    decodeTableWord 8 0x04 = some (.raFrag [0x04]) ∧ decodeTableWord 0 0 = some (.raFrag []) ∧
    decodeTableWord 24 0x030201 = some (.raFrag [0x01, 0x02, 0x03]) := by decide

/-- V11f, V11g, V13i, V42, V43, V44, and the payload of V20 one byte short. -/
theorem test_decode_rejects_by_name :
    decodeCommand ⟨0x10000001, []⟩ = .error .strayOperand ∧ decodeCommand ⟨0x11080041, []⟩ = .error .reservedBits ∧
    decodeCommand ⟨0x21000100, []⟩ = .error .strayOperand ∧ decodeCommand ⟨0x02000002, []⟩ = .error .strayOperand ∧
    decodeCommand ⟨0x00000000, []⟩ = .error .unknownOpcode ∧ decodeCommand ⟨0x35000000, []⟩ = .error .unknownOpcode ∧
    decodeCommand ⟨0x01000001, []⟩ = .error .strayOperand ∧ decodeCommand ⟨0x01800000, []⟩ = .error .strayOperand ∧
    decodeCommand ⟨0x33000B01, hello.tail⟩ = .error .payloadLength ∧
    decodeFragment ⟨1⟩ [0, 0] = .error .fragmentTooLong := by decide

/-- R53: the sixteen opcodes are sixteen, so no two rows overlap. -/
theorem test_no_two_opcodes_agree : (allOps.map opCode).Nodup ∧ allOps.length = 16 := by decide

/-! ## One step per test, at most two per instruction -/

/-- V40. -/
theorem test_sysStat_after_reset : hostAnswer (serve 0x01000000 State.reset) = some 0x00003FE0 := by decide

/-- P4. -/
theorem test_sysStat_while_a_fault_is_latched : hostAnswer (serve 0x01000000 faulted) = some 0x00003FE2 := by decide

/-- V41. -/
theorem test_sysCfg_sets_strict :
    nextIs (fun t => t.bcStrict && hostAnswer (serve 0x01000000 t) == some 0x00003FF0)
      (serve 0x02000001 State.reset) = true := by decide

/-- V42. -/
theorem test_sysCfg_with_a_stray_bit : hostAnswer (serve 0x02000002 State.reset) = some 0xF0000003 := by decide

/-- V11d. -/
theorem test_crcInit :
    nextIs (fun t => t.crcAcc == 0) (serve 0x10000000 { State.reset with crcAcc := 0xBB3D }) = true := by decide

/-- V11b. -/
theorem test_crcUpd_of_the_first_byte : hostAnswer (serve 0x11000031 State.reset) = some 0x0000D4C1 := by decide +kernel

/-- V11c. -/
theorem test_crcUpd_with_index_0 :
    hostAnswer (serve 0x110000FF { State.reset with crcAcc := 0xFFFF }) = some 0x000000FF := by decide +kernel

/-- P1. -/
theorem test_crcGet : hostAnswer (serve 0x12000000 { State.reset with crcAcc := 0xBB3D }) = some 0x0000BB3D := by decide

/-- V10d. -/
theorem test_crc_of_FF : crc16Arc [0xFF] = 0x4040 := by decide +kernel

/-- V10h. -/
theorem test_crc_of_128_bytes_FF : crc16Arc (List.replicate 128 0xFF) = 0x7400 := by decide +kernel

/-- V12m. -/
theorem test_raArm :
    nextIs (fun t => hostAnswer (serve 0x22000000 t) == some 0x00400000) (serve 0x20000000 State.reset) = true := by
  decide

/-- V13b. -/
theorem test_raPoll_completes_and_hands_off :
    nextIs (fun t => !t.raColl && hostAnswer (.next t) == some 0x20000085)
      (serve 0x21000000 (received true helloBlock)) = true := by decide +kernel

/-- V13e. -/
theorem test_raPoll_of_the_other_mode_never_completes :
    hostAnswer (serve 0x21800000 (received true helloBlock)) = some 0x10400085 := by decide +kernel

/-- V12g. -/
theorem test_raStat_shows_eot : hostAnswer (serve 0x22000000 (messaged [0x04])) = some 0x00800800 := by decide

/-- V12d. -/
theorem test_raMsgrd_of_the_byte : hostAnswer (serve 0x23000000 (messaged [0x43])) = some 0x00000043 := by decide

/-- V12e. -/
theorem test_raMsgrd_past_the_message : hostAnswer (serve 0x23000100 (messaged [0x43])) = some 0xF0000006 := by decide

/-- V12h. -/
theorem test_raMsgclr :
    nextIs (fun t => hostAnswer (serve 0x22000000 t) == some 0) (serve 0x24000000 (messaged [0x04])) = true := by
  decide

/-- V17c. -/
theorem test_raRxrd_of_the_last_byte : hostAnswer (serve 0x25008400 (received false helloBlock)) = some 0x0000001C := by
  decide +kernel

/-- V17b. -/
theorem test_raRxrd_before_the_hand_off : hostAnswer (serve 0x25000000 (received true [])) = some 0xF0000004 := by decide

/-- V27a. -/
theorem test_bcValidate_of_a_good_block :
    hostAnswer (serve 0x30000000 (received false helloBlock)) = some 0x0003FE01 := by decide +kernel

/-- V27b. -/
theorem test_bcValidate_of_a_damaged_block :
    hostAnswer (serve 0x30000000 (received false (helloBlock.set 5 0x6D))) = some 0x30005E1C := by decide +kernel

/-- V32. -/
theorem test_bcSeqchk_wraps :
    nextIs (fun t => t.bcLastseq == 0 && hostAnswer (.next t) == some 0x40000000)
      (serve 0x31000000 { State.reset with bcBf := false }) = true := by decide

/-- V31. -/
theorem test_bcSeqchk_strict_reject :
    nextIs (fun t => t.bcLastseq == 6 && hostAnswer (.next t) == some 0x60000907)
      (serve 0x31000009 { State.reset with bcBf := false, bcLastseq := 6, bcStrict := true }) = true := by decide

/-- V35. -/
theorem test_bcSeqinit :
    nextIs (fun t => hostAnswer (serve 0x01000000 t) == some 0x00003FE0)
      (serve 0x32000000 { State.reset with bcBf := false, bcLastseq := 0x2A }) = true := by decide

/-- V20. -/
theorem test_bcBuild_hello_world :
    nextIs (fun t => t.txbuf == cellsAt 0 helloBlock && hostAnswer (.next t) == some 0x00858E1C)
      (serveCommand ⟨0x33000B01, hello⟩ State.reset) = true := by decide +kernel

/-- V24. -/
theorem test_bcBuild_oversize :
    nextIs (fun t => t.bcTxlen == 0 && hostAnswer (.next t) == some 0xF0000005)
      (serveCommand ⟨0x33008100, List.replicate 129 0⟩ State.reset) = true := by decide +kernel

/-- V25. -/
theorem test_bcTxrd_of_the_high_crc_byte : hostAnswer (serve 0x34008300 (built helloBlock)) = some 0x0000008E := by
  decide +kernel

/-- V25b. -/
theorem test_bcTxrd_past_the_block : hostAnswer (serve 0x34008500 (built helloBlock)) = some 0xF0000006 := by decide +kernel

/-- P5. -/
theorem test_raFrag_sentinel : fragAnswer (serveFragment [0x04] (received true [0x01])) = some 0x80000801 := by decide

/-- V15a. -/
theorem test_raFrag_exact_fill :
    fragAnswer (serveFragment (List.replicate 9 0) (received true (List.replicate 1020 0))) = some 0x90000405 := by
  decide +kernel

/-! ## From reset, through the ports -/

/-- The table word of `CRC.UPD 0x31` is the first operation after reset. -/
theorem test_presented_word_runs :
    hostAnswer (step (State.reset.withFetchWord 32 0x11000031)) = some 0x0000D4C1 := by decide +kernel

/-- R170: reset clears a latched fault. -/
theorem test_reset_clears_the_fault :
    nextIs (fun t => t.sysFault == 0) (step { faulted with turns := [.environment] }) = true := by decide

/-! ## Witnesses: states and operands that meet the hypotheses of each statement, clause by clause -/

/-- `State.Inv` of a concrete state, from facts that can be evaluated. -/
theorem sound {s : State}
    (h : s.cfg.Legal ∧ s.rxbuf.Holds s.raWoff.toNat ∧ s.txbuf.Holds s.bcTxlen.toNat ∧ s.msg.Holds s.raMsglen.toNat ∧
      s.raWoff.toNat ≤ 1029 ∧ s.raMsglen.toNat ≤ s.cfg.fragMax ∧
      (s.bcTxlen = 0 ∨ s.bcTxlen = 133 ∨ s.bcTxlen = 1029) ∧ (s.bcBf = true → s.bcLastseq = 0xFF) ∧
      s.sysFault.toNat ≤ 6) : s.Inv :=
  let ⟨h1, h2, h3, h4, h5, h6, h7, h8, h9⟩ := h
  ⟨h1, h2, h3, h4, h5, h6, h7, h8, h9⟩

/-- A block that is collecting, with a command, a fragment and a reset to come. -/
def busy : State :=
  { received true [0x01, 0x02] with
    hostIn := [⟨0x21000000, []⟩, ⟨0xFFFFFFFF, []⟩], fragIn := [[0x03], []]
    turns := [.host, .transport, .environment, .host] }

/-- A block that collects and has received `n` bytes 0. -/
def collected (n : Nat) : State :=
  { State.reset with rxbuf := cellsAt 0 (List.replicate n 0), raWoff := BitVec.ofNat 11 n, raColl := true }

/-- No row of 30_encoding.md R53 matches the word. -/
abbrev NoRow (w : Word) : Prop := ∀ r ∈ rows, w &&& r.2 ≠ r.1

theorem noRow_of_all {w : Word} (h : (rows.all fun r => w &&& r.2 != r.1) = true) : NoRow w := by simpa using h

/-- A word that `IllegalForms` speaks of. -/
abbrev IllegalFormOf (op want mask w : Word) : Prop := State.reset.sysFault = 0 ∧ w >>> 24 = op ∧ w &&& mask ≠ want

theorem witness_faulted : faulted.sysFault ≠ 0 := by decide

theorem witness_DecodeOfEncodeIsTheOperation :
    WellFormed ⟨1029⟩ (.bcBuild .long 0xFF (List.replicate 2047 1)) = true ∧
    WellFormed ⟨1029⟩ (.raFrag (List.replicate 1029 4)) = true ∧ WellFormed ⟨1⟩ (.raRxrd 2047) = true := by
  decide +kernel

theorem witness_EncodeOfDecodeIsThePacket :
    decode ⟨1⟩ (.command ⟨0x33000304, [0x61, 0x62, 0x63]⟩) = .ok (.bcBuild .short 0x04 [0x61, 0x62, 0x63]) ∧
    decode ⟨1⟩ (.fragment [0x04]) = .ok (.raFrag [0x04]) := by decide

theorem witness_WordMatchingNoRowIsIllegal :
    State.reset.sysFault = 0 ∧ NoRow 0xFFFFFFFF ∧ NoRow 0x00000000 ∧ NoRow 0x01000001 ∧ NoRow 0x11080041 :=
  ⟨rfl, noRow_of_all (by decide), noRow_of_all (by decide), noRow_of_all (by decide), noRow_of_all (by decide)⟩

theorem witness_PayloadBelongsToItsCommand :
    decode ⟨1⟩ (.command ⟨0x33000304, [0x61, 0x62, 0x63]⟩) = .ok (.bcBuild .short 0x04 [0x61, 0x62, 0x63]) ∧
    decode ⟨1⟩ (.command ⟨0x20000000, []⟩) = .ok .raArm ∧ busy.turns = .host :: busy.turns.tail ∧
    busy.hostIn = ⟨0x21000000, []⟩ :: busy.hostIn.tail ∧ nextIs (fun _ => true) (step busy) = true := by decide

theorem witness_StepRunsTheDecodedOperation :
    busy.turns = .host :: busy.turns.tail ∧ busy.hostIn = ⟨0x21000000, []⟩ :: busy.hostIn.tail ∧
    decode busy.cfg (.command ⟨0x21000000, []⟩) = .ok (.raPoll .short) ∧
    busy.turns.tail = .transport :: busy.turns.tail.tail ∧ busy.fragIn = [0x03] :: busy.fragIn.tail ∧
    decode busy.cfg (.fragment [0x03]) = .ok (.raFrag [0x03]) ∧
    State.reset.hostIn = [] ∧ State.reset.fragIn = [] ∧ State.reset.turns = [] := by decide

theorem witness_PresentedTableWordRunsNext :
    decode State.reset.cfg (packetOfTableWord 32 0x11000031) = .ok (.crcUpd 0x31) ∧
    decode State.reset.cfg (packetOfTableWord 8 0x04) = .ok (.raFrag [0x04]) := by decide

theorem witness_StepServesOnePortInOrder :
    nextIs (fun _ => true) (step State.reset) = true ∧ nextIs (fun _ => true) (step busy) = true ∧
    nextIs (fun _ => true) (step { busy with turns := busy.turns.tail }) = true ∧
    nextIs (fun _ => true) (step { busy with turns := busy.turns.tail.tail }) = true ∧
    nextIs (fun _ => true) (step { State.reset with turns := [.host] }) = true := by decide

theorem witness_OneResponseWithALegalCode :
    nextIs (fun _ => true) (exec .raStat busy) = true ∧ nextIs (fun _ => true) (exec (.raFrag []) faulted) = true ∧
    Port.fragment ≠ portOf .raStat := by decide

theorem witness_PacketsNoPortCarriesAreRefused :
    State.reset.cfg.fragMax < (List.replicate 21 (0 : Byte)).length ∧
    decodeCommand ⟨0x33000304, [0x61, 0x62, 0x63]⟩ = .ok (.bcBuild .short 0x04 [0x61, 0x62, 0x63]) ∧
    ([0x61, 0x62] : List Byte).length ≠ ([0x61, 0x62, 0x63] : List Byte).length := by decide

theorem witness_AccessOutsideASpaceStops :
    (State.reset.sysFault = 0 ∧ State.reset.raColl = false ∧ List.replicate 21 (0 : Byte) ≠ [0x04] ∧
      State.reset.cfg.fragMax < (List.replicate 21 (0 : Byte)).length) ∧
    ({ State.reset with raMsglen := 1 } : State).sysFault = 0 ∧
      (0 : Offset).toNat < ({ State.reset with raMsglen := 1 } : State).raMsglen.toNat ∧
      Memory.read ({ State.reset with raMsglen := 1 } : State).msg (0 : Offset).toNat = none := by decide

theorem witness_RaisedFaultWritesOnlyTheLatch :
    State.reset.sysFault = 0 ∧ nextIs (fun t => t.sysFault != 0) (serve 0xFFFFFFFF State.reset) = true ∧
    nextIs (fun t => t.sysFault != 0) (serve 0x21000000 (collected 134)) = true ∧ (collected 1020).sysFault = 0 ∧
    nextIs (fun t => t.sysFault != 0) (serveFragment (List.replicate 10 0) (collected 1020)) = true ∧
    nextIs (fun _ => true) (exec .sysStat faulted) = true := by decide +kernel

theorem witness_LatchedFaultRefusesEverythingElse :
    faulted.sysFault ≠ 0 ∧ Instr.bcBuild .short 0 [1] ≠ .sysStat ∧ portOf (.bcBuild .short 0 [1]) = .host ∧
    NoRow 0x01000001 := ⟨by decide, by decide, rfl, noRow_of_all (by decide)⟩

theorem witness_LatchedFaultStaysUntilReset :
    faulted.sysFault ≠ 0 ∧ Agent.environment ∉ ({ busy with sysFault := 2, turns := [.host, .transport] } : State).turns ∧
    ({ busy with sysFault := 2, turns := [.host, .transport] } : State).sysFault ≠ 0 ∧
    nextIs (fun _ => true) (steps 3 { busy with sysFault := 2, turns := [.host, .transport] }) = true ∧
    ({ faulted with turns := [.environment] } : State).turns = .environment :: [] := by decide

/-- Each fault of 60_exceptions.md R140 is raised at the boundary of its condition and not one below it. -/
theorem witness_FaultsAreRaisedExactlyAsTabled :
    nextIs (fun t => t.sysFault == 1) (exec (.raFrag (List.replicate 10 0)) (collected 1020)) = true ∧
    nextIs (fun t => t.sysFault == 0) (exec (.raFrag (List.replicate 9 0)) (collected 1020)) = true ∧
    nextIs (fun t => t.sysFault == 2) (exec (.raPoll .short) (collected 134)) = true ∧
    nextIs (fun t => t.sysFault == 0) (exec (.raPoll .short) (collected 133)) = true ∧
    nextIs (fun t => t.sysFault == 3) (serve 0x00000000 State.reset) = true ∧
    nextIs (fun t => t.sysFault == 4) (exec (.bcValidate .short) (collected 133)) = true ∧
    nextIs (fun t => t.sysFault == 4) (exec (.bcValidate .long) (received false helloBlock)) = true ∧
    nextIs (fun t => t.sysFault == 4) (exec (.raRxrd 0) (collected 1)) = true ∧
    nextIs (fun t => t.sysFault == 5) (exec (.bcBuild .short 0 (List.replicate 129 0)) State.reset) = true ∧
    nextIs (fun t => t.sysFault == 0) (exec (.bcBuild .short 0 (List.replicate 128 0)) State.reset) = true ∧
    nextIs (fun t => t.sysFault == 6) (exec (.raRxrd 1) (received false [0])) = true ∧
    nextIs (fun t => t.sysFault == 0) (exec (.raRxrd 0) (received false [0])) = true ∧
    nextIs (fun t => t.sysFault == 6) (exec (.raMsgrd 0) State.reset) = true ∧
    nextIs (fun t => t.sysFault == 6) (exec (.bcTxrd 133) (built helloBlock)) = true := by decide +kernel

theorem witness_ChecksComeInTheFixedOrder :
    (faulted.sysFault ≠ 0 ∧ NoRow 0xFFFFFFFF) ∧ State.reset.sysFault = 0 ∧
    ((collected 1).sysFault = 0 ∧ (collected 1).raColl = true ∧ (collected 1).raWoff.toNat ≤ (1 : Offset).toNat) ∧
    State.reset.raWoff.toNat ≠ blockLen .short ∧
    ((collected 1029).sysFault = 0 ∧ (collected 1029).cfg.Legal ∧ (collected 1029).raColl = true ∧
      (collected 1029).raWoff.toNat ≥ 1029) ∧
    ([0x05] : List Byte) ≠ [0x04] ∧ (collected 1029).raWoff.toNat + ([0x05] : List Byte).length > 1029 :=
  ⟨⟨by decide, noRow_of_all (by decide)⟩, rfl, by decide, by decide, by decide, by decide, by decide⟩

theorem witness_ResetSetsEveryPieceOfState :
    ({ faulted with turns := [.environment] } : State).turns = .environment :: [] ∧ faulted.sysFault ≠ 0 ∧
    nextIs (fun t => t.sysFault == 0) (step { faulted with turns := [.environment] }) = true := by decide

theorem witness_ResetStateIsSound : Config.Legal ⟨1⟩ ∧ Config.Legal ⟨20⟩ ∧ Config.Legal ⟨1029⟩ := by decide

theorem witness_EveryStepKeepsTheStateSound : busy.Inv ∧ nextIs (fun _ => true) (step busy) = true :=
  ⟨sound (by decide), by decide⟩

theorem witness_ReachableStatesSatisfyTheStatedInvariants :
    Config.Legal ⟨1⟩ ∧ nextIs (fun _ => true) (steps 4 { State.resetOf ⟨1⟩ with
      hostIn := [⟨0x20000000, []⟩], fragIn := [[0x03]], turns := [.host, .transport, .environment] }) = true := by decide

theorem witness_EveryOperationKeepsMemoryCanonical :
    busy.rxbuf.wf ∧ busy.txbuf.wf ∧ busy.msg.wf ∧ nextIs (fun _ => true) (exec (.raFrag [0x03]) busy) = true := by decide

theorem witness_WellFormedOperationsComplete :
    busy.Inv ∧ WellFormed busy.cfg (.raFrag (List.replicate 20 0)) = true ∧ WellFormed busy.cfg (.raRxrd 2047) = true :=
  ⟨sound (by decide), by decide, by decide⟩

theorem witness_TheMachineNeverStops : busy.Inv ∧ busy.inputsPresentable = true := ⟨sound (by decide), by decide⟩

/-- Every clause has an operation that writes what the clause is about. -/
theorem witness_EachRegisterHasOnlyItsOwnWriters :
    nextIs (fun t => t.crcAcc != busy.crcAcc) (exec (.crcUpd 1) busy) = true ∧
    nextIs (fun t => t.rxbuf != busy.rxbuf) (exec .raArm busy) = true ∧
    nextIs (fun t => t.rxbuf != busy.rxbuf && t.raWoff != busy.raWoff) (exec (.raFrag [1]) busy) = true ∧
    State.reset.raColl = false ∧ nextIs (fun t => t.raColl) (exec .raArm State.reset) = true ∧
    busy.raColl = true ∧ nextIs (fun t => !t.raColl) (exec (.raFrag [0x04]) busy) = true ∧
    nextIs (fun t => t.msg != State.reset.msg) (exec (.raFrag [1]) State.reset) = true ∧
    nextIs (fun t => t.bcBf != busy.bcBf && t.bcLastseq != busy.bcLastseq) (exec (.bcSeqchk 0) busy) = true ∧
    nextIs (fun t => t.bcStrict != busy.bcStrict) (exec (.sysCfg true) busy) = true ∧
    nextIs (fun t => t.sysFault != busy.sysFault) (exec (.raRxrd 0) busy) = true ∧
    nextIs (fun t => t.txbuf != busy.txbuf && t.bcTxlen != busy.bcTxlen) (exec (.bcBuild .short 0 []) busy) = true := by
  decide +kernel

/-- One ill-formed word for each opcode that has one, for the statements on the single operations. -/
theorem witness_illegal_forms :
    IllegalFormOf 0x01 0x01000000 0xFFFFFFFF 0x01000001 ∧ IllegalFormOf 0x02 0x02000000 0xFFFFFFFE 0x02000002 ∧
    IllegalFormOf 0x10 0x10000000 0xFFFFFFFF 0x10000001 ∧ IllegalFormOf 0x11 0x11000000 0xFFFFFF00 0x11080041 ∧
    IllegalFormOf 0x12 0x12000000 0xFFFFFFFF 0x12800000 ∧ IllegalFormOf 0x20 0x20000000 0xFFFFFFFF 0x20000100 ∧
    IllegalFormOf 0x21 0x21000000 0xFF7FFFFF 0x21000100 ∧ IllegalFormOf 0x22 0x22000000 0xFFFFFFFF 0x22000001 ∧
    IllegalFormOf 0x23 0x23000000 0xFFF800FF 0x23000001 ∧ IllegalFormOf 0x24 0x24000000 0xFFFFFFFF 0x24400000 ∧
    IllegalFormOf 0x25 0x25000000 0xFFF800FF 0x25800000 ∧ IllegalFormOf 0x30 0x30000000 0xFF7FFFFF 0x30000001 ∧
    IllegalFormOf 0x31 0x31000000 0xFFFFFF00 0x31000100 ∧ IllegalFormOf 0x32 0x32000000 0xFFFFFFFF 0x32000001 ∧
    IllegalFormOf 0x33 0x33000000 0xFF780000 0x33080000 ∧ IllegalFormOf 0x34 0x34000000 0xFFF800FF 0x34000001 := by
  decide

/-- The one premise of the operations that only need an unlatched block, and of `CommandRule`. -/
theorem witness_unlatched_and_latched : State.reset.sysFault = 0 ∧ busy.sysFault = 0 ∧ faulted.sysFault ≠ 0 := by decide

theorem witness_CrcDetectsAnySingleDamagedByte : (0x6C : Byte) ≠ 0x6D := by decide

/-- V11b, V11c. -/
theorem witness_CrcUpdFeedsOneByte :
    (0xD4C1 : HalfWord) = (State.reset.crcAcc >>> 8)
      ^^^ tableEntry (((State.reset.crcAcc ^^^ (0x31 : Byte).zeroExtend 16) &&& 0x00FF).truncate 8) := by decide +kernel

/-- V11e: the build between the updates does not disturb the accumulator, and no fault is latched. -/
theorem witness_StreamedCrcIsTheFunction :
    State.reset.Inv ∧
    ([.crcUpd 0x31, .bcBuild .short 1 hello, .raFrag [0x43], .crcUpd 0x32] : List Instr).all
      (fun i => WellFormed State.reset.cfg i) = true ∧
    ([.crcUpd 0x31, .bcBuild .short 1 hello, .raFrag [0x43], .crcUpd 0x32] : List Instr).filter isCrc =
      ([0x31, 0x32] : List Byte).map .crcUpd ∧
    nextIs (fun t => t.sysFault == 0 && hostAnswer (.next t) == some 0x00004594)
      (execAll [.crcInit, .crcUpd 0x31, .bcBuild .short 1 hello, .raFrag [0x43], .crcUpd 0x32, .crcGet]
        State.reset) = true :=
  ⟨sound (by decide), by decide, by decide, by decide +kernel⟩

theorem witness_RaFragTakesItsThreeBranches :
    (State.reset.sysFault = 0 ∧ State.reset.cfg.Legal) ∧
    ((collected 1020).sysFault = 0 ∧ List.replicate 9 (0 : Byte) ≠ [0x04] ∧ (collected 1020).raColl = true ∧
      (collected 1020).raWoff.toNat + (List.replicate 9 (0 : Byte)).length = 1029 ∧
      (1029 : Offset) = BitVec.ofNat 11 ((collected 1020).raWoff.toNat + (List.replicate 9 (0 : Byte)).length)) ∧
    (collected 1020).raWoff.toNat + (List.replicate 10 (0 : Byte)).length > 1029 ∧
    (State.reset.raColl = false ∧ (List.replicate 20 (0 : Byte)).length ≤ State.reset.cfg.fragMax ∧
      (20 : Offset).toNat = (List.replicate 20 (0 : Byte)).length) ∧
    (List.replicate 1029 (4 : Byte)).length ≤ (⟨1029⟩ : Config).fragMax ∧ faulted.sysFault ≠ 0 := by decide +kernel

theorem witness_EotSaysTheLatestMessageIsTheSentinel :
    ((messaged [0x04]).raMsglen = 1 ∧ Memory.read (messaged [0x04]).msg 0 = some 0x04) ∧
    State.reset.sysFault = 0 ∧ State.reset.cfg.Legal ∧ State.reset.raColl = false ∧ ([0x04, 0x04] : List Byte) ≠ [0x04] ∧
    ([0x04, 0x04] : List Byte).length ≤ State.reset.cfg.fragMax ∧ (collected 133).sysFault = 0 ∧
    (collected 133).raWoff.toNat ≤ blockLen .short := by decide

theorem witness_RaPollHandsOffAtExactlyTheBlockLength :
    (collected 133).sysFault = 0 ∧ (collected 133).raWoff.toNat = blockLen .short ∧
    (collected 1029).raWoff.toNat = blockLen .long ∧ (collected 132).raWoff.toNat < blockLen .short ∧
    (collected 1028).raWoff.toNat < blockLen .long ∧ (collected 134).raWoff.toNat > blockLen .short ∧
    ({ State.reset with raWoff := 1030 } : State).raWoff.toNat > blockLen .long := by decide +kernel

theorem witness_RaMsgrdReadsOneByteOfTheMessage :
    (messaged [0x43]).sysFault = 0 ∧
    ((0 : Offset).toNat < (messaged [0x43]).raMsglen.toNat ∧
      Memory.read (messaged [0x43]).msg (0 : Offset).toNat = some 0x43) ∧
    (messaged [0x43]).raMsglen.toNat ≤ (1 : Offset).toNat := by decide

theorem witness_RaRxrdReadsOneByteAfterHandOff :
    ((received false helloBlock).sysFault = 0 ∧ (received false helloBlock).raColl = false ∧
      (132 : Offset).toNat < (received false helloBlock).raWoff.toNat ∧
      Memory.read (received false helloBlock).rxbuf (132 : Offset).toNat = some 0x1C) ∧
    ((received true helloBlock).sysFault = 0 ∧ (received true helloBlock).raColl = true) ∧
    (received false helloBlock).raWoff.toNat ≤ (133 : Offset).toNat := by decide +kernel

/-- V17c after V13b, with a read of the other kind and a `SYS.STAT` between the fragments. -/
theorem witness_ReassemblyDoesNotDependOnTheSplit :
    State.reset.Inv ∧ State.reset.sysFault = 0 ∧
    ([.raFrag [0x01], .crcGet, .raFrag [], .raFrag [0x04, 0xFB], .sysStat] : List Instr).all
      (fun i => WellFormed State.reset.cfg i && (i != .raArm) && (i != .raPoll .short) && (i != .raPoll .long)) = true ∧
    ([.raFrag [0x01], .crcGet, .raFrag [], .raFrag [0x04, 0xFB], .sysStat] : List Instr).filterMap fragmentOf =
      [[0x01], [], [0x04, 0xFB]] ∧
    (∀ f ∈ ([[0x01], [], [0x04, 0xFB]] : List (List Byte)), f ≠ [0x04]) ∧
    ([[0x01], [], [0x04, 0xFB]] : List (List Byte)).flatten.length ≤ 1029 ∧
    nextIs (fun t => t.sysFault == 0)
      (execAll [.raArm, .raFrag [0x01], .crcGet, .raFrag [], .raFrag [0x04, 0xFB], .sysStat] State.reset) = true :=
  ⟨sound (by decide), rfl, by decide, by decide, by decide, by decide, by decide⟩

theorem witness_ReceiveBufferHasOneOwner :
    (busy.sysFault = 0 ∧ busy.raColl = true) ∧ (received false [0x01]).raColl = false ∧
    nextIs (fun t => t.msg != []) (exec (.raFrag [0x01]) (received false [0x01])) = true := by decide

theorem witness_HandedOffBlockIsFrozenUntilArmed :
    (received false [0x01]).raColl = false ∧
    .raArm ∉ ([.raFrag [0x02], .bcSeqinit, .raPoll .short, .raMsgclr] : List Instr) ∧
    nextIs (fun _ => true)
      (execAll [.raFrag [0x02], .bcSeqinit, .raPoll .short, .raMsgclr] (received false [0x01])) = true := by decide

theorem witness_ArmedBufferGivesNoStaleByte :
    (received false helloBlock).sysFault = 0 ∧ (received false helloBlock).cfg.Legal := by decide +kernel

theorem witness_BcValidateDecidesByTheChecksum :
    (received false helloBlock).sysFault = 0 ∧ (received false helloBlock).raColl = false ∧
    (received false helloBlock).raWoff.toNat = blockLen .short ∧
    (hello ++ List.replicate 117 (0 : Byte)).length = payloadLen .short ∧
    Memory.readBytes (received false helloBlock).rxbuf 0 (blockLen .short) =
      some ([0x01, 0x01, 0xFE] ++ (hello ++ List.replicate 117 0) ++ [0x8E, 0x1C]) ∧
    ((collected 133).sysFault = 0 ∧ (collected 133).raColl = true) ∧
    ((received false helloBlock).raWoff.toNat ≠ blockLen .long) := by decide +kernel

theorem witness_BcSeqchkFollowsThePolicy :
    (State.reset.sysFault = 0 ∧ (0 : Byte).toNat = (State.reset.bcLastseq.toNat + 1) % 256) ∧
    ((5 : Byte) ≠ 0 ∧ State.reset.bcStrict = false) ∧ ({ State.reset with bcStrict := true } : State).bcStrict = true ∧
    (0xFF : Byte).toNat = (({ State.reset with bcLastseq := 0xFE, bcBf := false } : State).bcLastseq.toNat + 1) % 256 := by
  decide

theorem witness_ConsecutiveSequenceNumbersAreContinuous : State.reset.sysFault = 0 ∧ State.reset.bcLastseq = 0xFF := by
  decide

theorem witness_BcBuildWritesTheWholeBlock :
    State.reset.sysFault = 0 ∧ (List.replicate 128 (0 : Byte)).length ≤ payloadLen .short ∧
    payloadLen .short < (List.replicate 129 (0 : Byte)).length ∧
    (List.replicate 1024 (0 : Byte)).length ≤ payloadLen .long ∧
    payloadLen .long < (List.replicate 1025 (0 : Byte)).length ∧ (List.replicate 2047 (0 : Byte)).length < 2048 := by
  decide +kernel

theorem witness_BcTxrdReadsOneByteOfTheBuiltBlock :
    ((built helloBlock).sysFault = 0 ∧ (132 : Offset).toNat < (built helloBlock).bcTxlen.toNat ∧
      Memory.read (built helloBlock).txbuf (132 : Offset).toNat = some 0x1C) ∧
    (built helloBlock).bcTxlen.toNat ≤ (133 : Offset).toNat := by decide +kernel

/-- V14, run 3 and V20: seven fragments of at most 20 bytes. -/
theorem witness_BuiltBlockReassemblesAndValidates :
    State.reset.sysFault = 0 ∧ hello.length ≤ payloadLen .short ∧ State.reset.Inv ∧
    ([helloBlock.take 20, (helloBlock.drop 20).take 20, (helloBlock.drop 40).take 20, (helloBlock.drop 60).take 20,
      (helloBlock.drop 80).take 20, (helloBlock.drop 100).take 20, helloBlock.drop 120] : List (List Byte)).flatten =
        block .short 1 hello ∧
    ∀ f ∈ [helloBlock.take 20, (helloBlock.drop 20).take 20, (helloBlock.drop 40).take 20, (helloBlock.drop 60).take 20,
      (helloBlock.drop 80).take 20, (helloBlock.drop 100).take 20, helloBlock.drop 120],
        f ≠ [0x04] ∧ f.length ≤ State.reset.cfg.fragMax :=
  ⟨by decide, by decide, sound (by decide), by decide +kernel, by decide +kernel⟩

end Sys2Proof.Tests
end

section
/-! PROOFS. Soundness (10_state.md R23): one lemma per state update, one per operation's outcome, then the step and any
number of steps. -/

namespace Sys2Proof.Machine

/-! ## Values the invariant bounds -/

/-- A length register holds every length below 2048 as it is. -/
theorem toNat_ofNat_of_lt_2048 {n : Nat} (h : n < 2048) : (BitVec.ofNat 11 n).toNat = n := Nat.mod_eq_of_lt h

theorem toNat_faultBits_le (c : FaultCode) : (faultBits c).toNat ≤ 6 := by cases c <;> decide

/-- The two block lengths are the two nonzero values of `BC_TXLEN`. -/
theorem ofNat_blockLen_cases (m : Mode) :
    BitVec.ofNat 11 (blockLen m) = 0 ∨ BitVec.ofNat 11 (blockLen m) = 133 ∨ BitVec.ofNat 11 (blockLen m) = 1029 := by
  cases m <;> decide

/-- A fault latch of at most 6 holds no code or one of the six of 60_exceptions.md R140. -/
theorem sysFault_cases (x : BitVec 4) (h : x.toNat ≤ 6) :
    x = 0 ∨ x = 1 ∨ x = 2 ∨ x = 3 ∨ x = 4 ∨ x = 5 ∨ x = 6 := by
  revert x; decide

/-- The state with `f` as its latest received message (10_state.md R17). -/
def recorded (f : List Byte) (s : State) : State :=
  { s with msg := cellsAt 0 f, raMsglen := BitVec.ofNat 11 f.length }

/-- Recording a message that fits goes on in the state with that message. -/
theorem recordMessage_fits {f : List Byte} {s : State} {body : State → Result} (h : f.length ≤ s.cfg.fragMax) :
    recordMessage f s body = body (recorded f s) := by
  rw [recordMessage, withFill_fits (by simpa using h), filled_msg, recorded]

/-! ## What keeps a state sound -/

/-- `t` has the configuration of `s`, and is sound when `s` is: what every operation and every step does. -/
structure KeepsSound (s t : State) : Prop where
  cfg_eq : t.cfg = s.cfg
  inv : s.Inv → t.Inv

namespace KeepsSound

@[refl] theorem refl (s : State) : KeepsSound s s := ⟨rfl, id⟩

@[trans] theorem trans {s t u : State} (hst : KeepsSound s t) (htu : KeepsSound t u) : KeepsSound s u :=
  ⟨htu.cfg_eq.trans hst.cfg_eq, fun hs => htu.inv (hst.inv hs)⟩

/-! ## Registers, queues and responses -/

theorem crcAcc (s : State) (c : HalfWord) : KeepsSound s { s with crcAcc := c } := ⟨rfl, fun h => { h with }⟩

theorem bcStrict (s : State) (b : Bool) : KeepsSound s { s with bcStrict := b } := ⟨rfl, fun h => { h with }⟩

theorem raColl (s : State) (b : Bool) : KeepsSound s { s with raColl := b } := ⟨rfl, fun h => { h with }⟩

theorem pending (s : State) (ts : List Agent) (cs : List HostCommand) (fs : List (List Byte)) :
    KeepsSound s { s with turns := ts, hostIn := cs, fragIn := fs } := ⟨rfl, fun h => { h with }⟩

theorem answer (p : Port) (w : Word) (s : State) : KeepsSound s (answer p w s) := by
  cases p <;> exact ⟨rfl, fun h => { h with }⟩

theorem sysFault (s : State) (c : FaultCode) : KeepsSound s { s with sysFault := faultBits c } :=
  ⟨rfl, fun h => { h with faultLegal := toNat_faultBits_le c }⟩

/-- `BC_LASTSEQ` may hold anything once a block has been accepted. -/
theorem seqAccepted (s : State) (r : Byte) : KeepsSound s { s with bcLastseq := r, bcBf := false } :=
  ⟨rfl, fun h => { h with beforeFirst := nofun }⟩

theorem seqInit (s : State) : KeepsSound s { s with bcBf := true, bcLastseq := 0xFF } :=
  ⟨rfl, fun h => { h with beforeFirst := fun _ => rfl }⟩

/-! ## Byte spaces with their length registers -/

theorem rxEmptied (s : State) : KeepsSound s { s with rxbuf := [], raWoff := 0, raColl := true } :=
  ⟨rfl, fun h => { h with rxbufHolds := holds_nil, woffBound := Nat.zero_le _ }⟩

theorem msgEmptied (s : State) : KeepsSound s { s with msg := [], raMsglen := 0 } :=
  ⟨rfl, fun h => { h with msgHolds := holds_nil, msglenBound := Nat.zero_le _ }⟩

/-- The capacity test of `RA.FRAG` is what keeps `RA_WOFF` at most 1029. -/
theorem rxAppended {s : State} {f : List Byte} (hf : s.raWoff.toNat + f.length ≤ 1029) :
    KeepsSound s { s with
      rxbuf := Memory.writeBytes s.rxbuf s.raWoff.toNat f
      raWoff := BitVec.ofNat 11 (s.raWoff.toNat + f.length) } := by
  have hlen : (BitVec.ofNat 11 (s.raWoff.toNat + f.length)).toNat = s.raWoff.toNat + f.length :=
    toNat_ofNat_of_lt_2048 (by omega)
  exact ⟨rfl, fun h => { h with
    rxbufHolds := hlen.symm ▸ holds_append h.rxbufHolds f
    woffBound := hlen.symm ▸ hf }⟩

/-- `FRAG_MAX` bounds the recorded message, and is itself small enough for the length register. -/
theorem msgRecorded {s : State} {f : List Byte} (hf : f.length ≤ s.cfg.fragMax) : KeepsSound s (recorded f s) := by
  refine ⟨rfl, fun h => ?_⟩
  have hlen : (BitVec.ofNat 11 f.length).toNat = f.length :=
    toNat_ofNat_of_lt_2048 (by have := h.cfgLegal.2; omega)
  exact { h with
    msgHolds := hlen.symm ▸ holds_cellsAt f
    msglenBound := hlen.symm ▸ hf }

theorem txBuilt (s : State) (m : Mode) {bs : List Byte} (hbs : bs.length = blockLen m) :
    KeepsSound s { s with txbuf := cellsAt 0 bs, bcTxlen := BitVec.ofNat 11 (blockLen m) } := by
  have hlen : (BitVec.ofNat 11 (blockLen m)).toNat = bs.length := by
    rw [hbs, toNat_ofNat_of_lt_2048 (by have := blockLen_le m; omega)]
  exact ⟨rfl, fun h => { h with
    txbufHolds := hlen.symm ▸ holds_cellsAt bs
    txlenLegal := ofNat_blockLen_cases m }⟩

theorem reset (s : State) : KeepsSound s (resetBlock s) :=
  ⟨rfl, fun h =>
    { cfgLegal := h.cfgLegal, rxbufHolds := holds_nil, txbufHolds := holds_nil, msgHolds := holds_nil
      woffBound := Nat.zero_le _, msglenBound := Nat.zero_le _, txlenLegal := .inl rfl
      beforeFirst := fun _ => rfl, faultLegal := Nat.zero_le _ }⟩

/-! ## The three outcomes of an operation -/

theorem refused {p : Port} {s t : State} (h : RefusedTo p s t) : KeepsSound s t := h.2 ▸ answer p _ s

theorem raised {p : Port} {c : FaultCode} {s t : State} (h : RaisedTo p c s t) : KeepsSound s t :=
  h.2 ▸ (sysFault s c).trans (answer p _ _)

theorem answered {p : Port} {c : Code} {data : BitVec 28} {s s' t : State} (hs : KeepsSound s s')
    (h : AnsweredTo p c data s' t) : KeepsSound s t := h ▸ hs.trans (answer p _ s')

end KeepsSound

open KeepsSound

/-! ## Operations -/

theorem execRaPoll_keepsSound {m : Mode} {s t : State} (h : execRaPoll m s = .next t) : KeepsSound s t := by
  rcases execRaPoll_next h with hr | ⟨-, hf⟩ | ⟨-, -, ha⟩ | ⟨-, -, ha⟩
  · exact refused hr
  · exact raised hf
  · exact answered (raColl s false) ha
  · exact answered (refl s) ha

theorem execRaMsgrd_keepsSound {a : Offset} {s t : State} (h : execRaMsgrd a s = .next t) : KeepsSound s t := by
  rcases execRaMsgrd_next h with hr | ⟨-, hf⟩ | ⟨-, -, _, -, ha⟩
  · exact refused hr
  · exact raised hf
  · exact answered (refl s) ha

theorem execRaRxrd_keepsSound {a : Offset} {s t : State} (h : execRaRxrd a s = .next t) : KeepsSound s t := by
  rcases execRaRxrd_next h with hr | ⟨-, hf⟩ | ⟨-, -, hf⟩ | ⟨-, -, -, _, -, ha⟩
  · exact refused hr
  · exact raised hf
  · exact raised hf
  · exact answered (refl s) ha

theorem execBcValidate_keepsSound {m : Mode} {s t : State} (h : execBcValidate m s = .next t) : KeepsSound s t := by
  rcases execBcValidate_next h with
    hr | ⟨-, hf⟩ | ⟨-, -, -, _, _, _, _, _, _, -, -, -, -, -, -, ⟨-, ha⟩ | ⟨-, ha⟩⟩
  · exact refused hr
  · exact raised hf
  · exact answered (refl s) ha
  · exact answered (refl s) ha

theorem execBcSeqchk_keepsSound {r : Byte} {s t : State} (h : execBcSeqchk r s = .next t) : KeepsSound s t := by
  rcases execBcSeqchk_next h with hr | ⟨-, -, ha⟩ | ⟨-, -, -, ha⟩ | ⟨-, -, -, ha⟩
  · exact refused hr
  · exact answered (seqAccepted s r) ha
  · exact answered (seqAccepted s r) ha
  · exact answered (refl s) ha

theorem execBcBuild_keepsSound {m : Mode} {q : Byte} {src : List Byte} {s t : State}
    (h : execBcBuild m q src s = .next t) : KeepsSound s t := by
  rcases execBcBuild_next h with hr | ⟨-, hf⟩ | ⟨-, hl, ha⟩
  · exact refused hr
  · exact raised hf
  · exact answered (txBuilt s m (length_builtBlock hl)) ha

theorem execBcTxrd_keepsSound {a : Offset} {s t : State} (h : execBcTxrd a s = .next t) : KeepsSound s t := by
  rcases execBcTxrd_next h with hr | ⟨-, hf⟩ | ⟨-, -, _, -, ha⟩
  · exact refused hr
  · exact raised hf
  · exact answered (refl s) ha

theorem execRaFrag_keepsSound {f : List Byte} {s t : State} (h : execRaFrag f s = .next t) : KeepsSound s t := by
  rcases execRaFrag_next h with
    hr | ⟨-, rfl, hmax, _, rfl, ha⟩ | ⟨-, -, -, hf⟩ | ⟨-, -, -, hfit, _, rfl, ha⟩ | ⟨-, -, -, hmax, _, rfl, ha⟩
  · exact refused hr
  · exact answered ((raColl s false).trans (msgRecorded (f := [eotByte]) hmax)) ha
  · exact raised hf
  · exact answered (rxAppended hfit) ha
  · exact answered (msgRecorded hmax) ha

/-- Every operation keeps the configuration and the invariant. -/
theorem exec_keepsSound {i : Instr} {s t : State} (h : exec i s = .next t) : KeepsSound s t := by
  cases i with
  | sysStat => exact answered (refl s) (execSysStat_next h)
  | sysCfg b => exact (execSysCfg_next h).elim refused fun ha => answered (bcStrict s b) ha.2
  | crcInit => exact (execCrcInit_next h).elim refused fun ha => answered (crcAcc s 0) ha.2
  | crcUpd b => exact (execCrcUpd_next h).elim refused fun ha => answered (crcAcc s _) ha.2
  | crcGet => exact (execCrcGet_next h).elim refused fun ha => answered (refl s) ha.2
  | raArm => exact (execRaArm_next h).elim refused fun ha => answered (rxEmptied s) ha.2
  | raPoll m => exact execRaPoll_keepsSound h
  | raStat => exact (execRaStat_next h).elim refused fun ha => answered (refl s) ha.2
  | raMsgrd a => exact execRaMsgrd_keepsSound h
  | raMsgclr => exact (execRaMsgclr_next h).elim refused fun ha => answered (msgEmptied s) ha.2
  | raRxrd a => exact execRaRxrd_keepsSound h
  | bcValidate m => exact execBcValidate_keepsSound h
  | bcSeqchk r => exact execBcSeqchk_keepsSound h
  | bcSeqinit => exact (execBcSeqinit_next h).elim refused fun ha => answered (seqInit s) ha.2
  | bcBuild m q src => exact execBcBuild_keepsSound h
  | bcTxrd a => exact execBcTxrd_keepsSound h
  | raFrag f => exact execRaFrag_keepsSound h

/-! ## Steps -/

theorem serveCommand_keepsSound {c : HostCommand} {s t : State} (h : serveCommand c s = .next t) : KeepsSound s t := by
  rcases serveCommand_next h with ⟨i, -, hi⟩ | ⟨e, -, -, he⟩
  · exact exec_keepsSound hi
  · exact (illegalCommand_next he).elim refused raised

/-- Every step keeps the configuration and the invariant, whatever is pending and whoever's turn it is. -/
theorem step_keepsSound {s t : State} (h : step s = .next t) : KeepsSound s t := by
  rcases step_next h with ⟨-, rfl⟩ | ⟨ts, -, -, rfl⟩ | ⟨ts, c, cs, -, -, hc⟩ | ⟨ts, -, -, rfl⟩ |
    ⟨ts, f, fs, -, -, hf⟩ | ⟨ts, -, rfl⟩
  · exact refl t
  · exact pending s ts s.hostIn s.fragIn
  · exact (pending s ts cs s.fragIn).trans (serveCommand_keepsSound hc)
  · exact pending s ts s.hostIn s.fragIn
  · exact (pending s ts s.hostIn fs).trans (exec_keepsSound (serveFragment_next hf).2)
  · exact (pending s ts s.hostIn s.fragIn).trans (reset _)

/-- `n + 1` steps are one step and then `n`. -/
theorem steps_succ_next {n : Nat} {s t : State} (h : steps (n + 1) s = .next t) :
    ∃ u, step s = .next u ∧ steps n u = .next t := by
  unfold steps at h
  split at h
  · exact ⟨_, ‹_›, h⟩
  · cases h
  · cases h

/-- What every step keeps, any number of steps keeps. -/
theorem steps_invariant {P : State → Prop} (hstep : ∀ s t, P s → step s = .next t → P t) (n : Nat) (s t : State)
    (hs : P s) (h : steps n s = .next t) : P t := by
  induction n generalizing s with
  | zero => exact Host.Outcome.next.inj h ▸ hs
  | succ n ih =>
    obtain ⟨u, hu, ht⟩ := steps_succ_next h
    exact ih u (hstep s u hs hu) ht

theorem steps_keepsSound {n : Nat} {s t : State} (h : steps n s = .next t) : KeepsSound s t :=
  steps_invariant (P := KeepsSound s) (fun _ _ hu hstep => hu.trans (step_keepsSound hstep)) n s t (refl s) h

/-! ## From reset -/

/-- Reset is sound for every legal `FRAG_MAX` (10_state.md R24). -/
theorem resetOf_inv {cfg : Config} (hcfg : cfg.Legal) : (State.resetOf cfg).Inv where
  cfgLegal := hcfg
  rxbufHolds := holds_nil
  txbufHolds := holds_nil
  msgHolds := holds_nil
  woffBound := Nat.zero_le _
  msglenBound := Nat.zero_le _
  txlenLegal := .inl rfl
  beforeFirst := fun _ => rfl
  faultLegal := Nat.zero_le _

/-- Settles O20: reset is sound, steps keep soundness and `FRAG_MAX`, and soundness holds the five bounds. -/
theorem reachableStatesSatisfyTheStatedInvariants : Obligations.ReachableStatesSatisfyTheStatedInvariants := by
  intro cfg hs fs ts n t hcfg hrun
  have hkeep : KeepsSound (State.resetOf cfg) t := (pending (State.resetOf cfg) ts hs fs).trans (steps_keepsSound hrun)
  have hsound : t.Inv := hkeep.inv (resetOf_inv hcfg)
  have hsame : t.cfg = cfg := hkeep.cfg_eq
  exact ⟨hsound.woffBound, hsame ▸ hsound.msglenBound, hsound.txlenLegal, hsound.beforeFirst,
    sysFault_cases t.sysFault hsound.faultLegal⟩

end Sys2Proof.Machine
end

section
/-! PROOFS. The flag `eot` (10_state.md R22): what a recorded message makes it, and the bit that reports it. -/

namespace Sys2Proof.Machine

theorem eotFlag_iff (s : State) : eotFlag s = true ↔ s.raMsglen = 1 ∧ Memory.read s.msg 0 = some 0x04 := by
  simp [eotFlag, eotByte]

@[simp] theorem eotFlag_answer (p : Port) (w : Word) (s : State) : eotFlag (answer p w s) = eotFlag s := by
  simp [eotFlag]

theorem eotFlag_of_raMsglen_zero {s : State} (h : s.raMsglen = 0) : eotFlag s = false := by simp [eotFlag, h]

/-- The length register tells a message of one byte from any other message that it can count. -/
theorem ofNat_length_eq_one {f : List Byte} (hf : f.length < 2048) : BitVec.ofNat 11 f.length = 1 ↔ f.length = 1 := by
  rw [← BitVec.toNat_inj, toNat_ofNat_of_lt_2048 hf]
  exact Iff.rfl

/-- A recorded message sets `eot` exactly when it is the sentinel, whatever was recorded before it. -/
theorem eotFlag_recorded {f : List Byte} (s : State) (hf : f.length < 2048) :
    eotFlag (recorded f s) = true ↔ f = [eotByte] := by
  rw [eotFlag_iff, recorded, ofNat_length_eq_one hf, read_cellsAt, List.length_eq_one_iff]
  constructor
  · rintro ⟨⟨b, rfl⟩, hb⟩
    simpa [eotByte] using hb
  · rintro rfl
    exact ⟨⟨_, rfl⟩, rfl⟩

/-! ## What the `RA` operations answer -/

theorem execRaFrag_sentinel {s : State} (h0 : s.sysFault = 0) (hcfg : 1 ≤ s.cfg.fragMax) :
    execRaFrag [eotByte] s = respond .fragment .fragEot (fragData (recorded [eotByte] { s with raColl := false }))
      (recorded [eotByte] { s with raColl := false }) := by
  rw [execRaFrag, guarded_unlatched h0, if_pos rfl, recordMessage_fits (by exact hcfg)]

theorem execRaFrag_message {s : State} {f : List Byte} (h0 : s.sysFault = 0) (hf : f ≠ [eotByte])
    (hcoll : s.raColl = false) (hmax : f.length ≤ s.cfg.fragMax) :
    execRaFrag f s = respond .fragment .fragMessage (fragData (recorded f s)) (recorded f s) := by
  rw [execRaFrag, guarded_unlatched h0, if_neg hf, if_neg (by simp [hcoll]), recordMessage_fits hmax]

theorem execRaMsgclr_unlatched {s : State} (h0 : s.sysFault = 0) :
    execRaMsgclr s = respond .host .ok noData { s with msg := [], raMsglen := 0 } := by
  rw [execRaMsgclr, guarded_unlatched h0, setLength, truncate_zero, BitVec.ofNat_eq_ofNat]

theorem execRaStat_unlatched {s : State} (h0 : s.sysFault = 0) :
    execRaStat s = respond .host .ok (statData s) s := guarded_unlatched h0

theorem execRaPoll_equal {m : Mode} {s : State} (h0 : s.sysFault = 0) (hlen : s.raWoff.toNat = blockLen m) :
    execRaPoll m s = respond .host .complete (statData { s with raColl := false }) { s with raColl := false } := by
  rw [execRaPoll, guarded_unlatched h0, if_neg (by omega), if_pos hlen]

theorem execRaPoll_less {m : Mode} {s : State} (h0 : s.sysFault = 0) (hlen : s.raWoff.toNat < blockLen m) :
    execRaPoll m s = respond .host .incomplete (statData s) s := by
  rw [execRaPoll, guarded_unlatched h0, if_neg (by omega), if_neg (by omega)]

/-- Bit 23 of a response with `stat` is `eot` (30_encoding.md R58). -/
theorem getLsbD_23_statData (c : Code) (s : State) : (responseWord c (statData s)).getLsbD 23 = eotFlag s := by
  rw [responseWord_statData]
  simp only [BitVec.getLsbD_append]
  simp

/-- Settles O36: a recorded message decides `eot`, a cleared one leaves it 0, and bit 23 of `stat` reports it. -/
theorem eotSaysTheLatestMessageIsTheSentinel : Obligations.EotSaysTheLatestMessageIsTheSentinel := by
  refine ⟨eotFlag_iff, fun s h0 hcfg => ?sentinel, fun s f h0 hcfg hcoll hf hmax => ?message, fun s h0 => ?clear,
    fun s h0 => ?stat, fun s m h0 hlen => ?poll⟩
  case sentinel =>
    refine ⟨_, execRaFrag_sentinel h0 hcfg.1, ?_⟩
    rw [eotFlag_answer]
    exact (eotFlag_recorded _ (by decide)).2 rfl
  case message =>
    have hlen : f.length < 2048 := by have := hcfg.2; omega
    refine ⟨_, execRaFrag_message h0 hf hcoll hmax, ?_⟩
    rw [eotFlag_answer, ← Bool.not_eq_true, eotFlag_recorded s hlen]
    exact hf
  case clear =>
    refine ⟨_, execRaMsgclr_unlatched h0, ?_⟩
    rw [eotFlag_answer]
    exact eotFlag_of_raMsglen_zero rfl
  case stat => exact ⟨_, _, execRaStat_unlatched h0, rfl, getLsbD_23_statData .ok s⟩
  case poll =>
    rcases hlen.eq_or_lt with heq | hlt
    · exact ⟨_, _, execRaPoll_equal h0 heq, rfl, getLsbD_23_statData .complete { s with raColl := false }⟩
    · exact ⟨_, _, execRaPoll_less h0 hlt, rfl, getLsbD_23_statData .incomplete s⟩

end Sys2Proof.Machine
end

section
/-! PROOFS. The owner of `RXBUF` (20_memory.md R45): what the host's two readers of the buffer raise before the
hand-off, and what a fragment leaves alone after it. -/

namespace Sys2Proof.Machine

open Sys2Proof.Spec

/-! ## Before the hand-off: the host may not read -/

/-- A fault raised on the host port with none latched: its code is latched, the `FAULT` word is given, and nothing else
changes (60_exceptions.md R142). -/
theorem raiseFault_host {c : FaultCode} {s : State} (h0 : s.sysFault = 0) :
    raiseFault .host c s =
      .next { s with sysFault := faultBits c, hostOut := s.hostOut ++ [faultWord (faultBits c)] } := by
  rw [raiseFault_unlatched h0, responseWord_fault]
  rfl

theorem execRaRxrd_collecting {a : Offset} {s : State} (h0 : s.sysFault = 0) (hcoll : s.raColl = true) :
    execRaRxrd a s = raiseFault .host .notHandedOff s := by
  rw [execRaRxrd, guarded_unlatched h0, if_pos hcoll]

/-- The first half of `BC.VALIDATE`'s precondition decides alone: the number of bytes collected does not matter. -/
theorem execBcValidate_collecting {m : Mode} {s : State} (h0 : s.sysFault = 0) (hcoll : s.raColl = true) :
    execBcValidate m s = raiseFault .host .notHandedOff s := by
  rw [execBcValidate, guarded_unlatched h0, if_pos (.inl hcoll)]

/-! ## After the hand-off: a fragment may not write -/

/-- Only the append writes `RXBUF` or `RA_WOFF`, and it happens only while collecting. -/
theorem execRaFrag_rxbuf_raWoff_of_handedOff {f : List Byte} {s t : State} (hcoll : s.raColl = false)
    (h : execRaFrag f s = .next t) : t.rxbuf = s.rxbuf ∧ t.raWoff = s.raWoff := by
  rcases execRaFrag_next h with ⟨-, refused⟩ | ⟨-, -, -, _, rfl, sentinel⟩ | ⟨-, collecting, -, -⟩ |
    ⟨-, -, collecting, -⟩ | ⟨-, -, -, -, _, rfl, message⟩
  · simp [refused]
  · simp [sentinel]
  · simp [hcoll] at collecting
  · simp [hcoll] at collecting
  · simp [message]

/-- Settles O44: while `RA_COLL` is 1 both host readers fault, and while it is 0 no fragment writes the buffer. -/
theorem receiveBufferHasOneOwner : Obligations.ReceiveBufferHasOneOwner :=
  ⟨fun _ _ _ h0 hcoll =>
    ⟨(execRaRxrd_collecting h0 hcoll).trans (raiseFault_host h0),
      (execBcValidate_collecting h0 hcoll).trans (raiseFault_host h0)⟩,
    fun _ _ _ hcoll h => execRaFrag_rxbuf_raWoff_of_handedOff hcoll h⟩

end Sys2Proof.Machine
end

section
/-! PROOFS. Illegal command words (30_encoding.md R54): the written-out rows of R53 are the decoder's rows, so a word
that matches none of them is one the decoder rejects, and rejecting it raises `ILLEGAL_COMMAND` only. -/

namespace Sys2Proof.Machine

open Sys2Proof.Spec

/-! ## The rows of the spec and the rows of the decoder -/

theorem mem_allOps (o : Op) : o ∈ allOps := by cases o <;> decide

/-- The `match` and `mask` columns as the spec writes them are those the decoder's operand columns give. -/
theorem rows_eq_map_allOps : rows = allOps.map fun o => (rowMatch o, rowMask o) := by decide

theorem forall_rows_ne_iff (w : Word) : (∀ r ∈ rows, w &&& r.2 ≠ r.1) ↔ ∀ o, w &&& rowMask o ≠ rowMatch o := by
  simp [rows_eq_map_allOps, mem_allOps]

theorem opOfCode_eq_some_iff {code : Byte} {o : Op} : opOfCode code = some o ↔ code = opCode o :=
  ⟨fun h => (opCode_of_opOfCode h).symm, fun h => h ▸ opOfCode_opCode o⟩

/-- A word is rejected as illegal exactly when it matches no row, whatever payload comes with it. -/
theorem decodeCommand_illegal_iff_no_row (c : HostCommand) :
    (∃ e, decodeCommand c = .error e ∧ e.isIllegalWord = true) ↔ ∀ r ∈ rows, c.word &&& r.2 ≠ r.1 := by
  rw [decodeCommand_illegal_iff, forall_rows_ne_iff]
  refine forall_congr' fun o => ?_
  rw [opOfCode_eq_some_iff, ne_eq (_ &&& _), row_matches_iff, not_and, not_and_or, Bool.not_eq_false]

/-! ## What an illegal word does -/

theorem serveCommand_illegal {c : HostCommand} {e : DecodeError} (hc : decodeCommand c = .error e)
    (he : e.isIllegalWord = true) (s : State) : serveCommand c s = illegalCommand s := by
  simp [serveCommand, decode, hc, he]

theorem illegalCommand_unlatched {s : State} (h0 : s.sysFault = 0) :
    illegalCommand s = .next { s with sysFault := 3, hostOut := s.hostOut ++ [faultWord 3] } := by
  rw [illegalCommand, guarded_unlatched h0, raiseFault_host h0]
  rfl

/-- Settles O4: the decoder's rejections are the words outside every row, and such a word latches code 3 and answers
with it. -/
theorem wordMatchingNoRowIsIllegal : Obligations.WordMatchingNoRowIsIllegal := by
  refine ⟨fun w p => decodeCommand_illegal_iff_no_row ⟨w, p⟩, fun w p s h0 hrow => ?_⟩
  obtain ⟨e, hc, he⟩ := (decodeCommand_illegal_iff_no_row ⟨w, p⟩).2 hrow
  exact (serveCommand_illegal hc he s).trans (illegalCommand_unlatched h0)

end Sys2Proof.Machine
end

section
/-! PROOFS. Traces (30_encoding.md R64): every well-formed operation of a sound state completes, a latched fault stays
latched, and so a trace that ends with no fault latched ran with none latched throughout. -/

namespace Sys2Proof.Machine

/-! ## Completing: the rules of the shared operations -/

/-- The model neither stops with a fault nor refuses. -/
abbrev Completes (r : Result) : Prop := ∃ t, r = .next t

theorem guarded_completes {p : Port} {s : State} {body : State → Result} (hbody : Completes (body s)) :
    Completes (guarded p s body) := by
  by_cases h0 : s.sysFault = 0
  · rwa [guarded_unlatched h0]
  · exact ⟨_, guarded_latched h0⟩

theorem withByte_completes {sp : Space} {a n : Nat} {s : State} {body : Byte → Result}
    (hheld : (spaceOf s sp).Holds n) (ha : a < n) (hbody : ∀ b, Completes (body b)) :
    Completes (withByte sp a s body) := by
  obtain ⟨b, hb⟩ := exists_read_of_holds hheld ha
  rw [withByte_some hb]
  exact hbody b

theorem withBytes_completes {sp : Space} {a k n : Nat} {s : State} {body : List Byte → Result}
    (hheld : (spaceOf s sp).Holds n) (hk : a + k ≤ n) (hbody : ∀ bs, Completes (body bs)) :
    Completes (withBytes sp a k s body) := by
  obtain ⟨bs, hbs⟩ := exists_readBytes_of_holds hheld hk
  rw [withBytes_some hbs]
  exact hbody bs

theorem withFill_completes {sp : Space} {bs : List Byte} {s : State} {body : State → Result}
    (hfit : bs.length ≤ capacityOf s sp) (hbody : ∀ s', Completes (body s')) : Completes (withFill sp bs s body) := by
  rw [withFill_fits hfit]
  exact hbody _

/-- `READ_UNWRITTEN` answers every offset at which a space filled up to its length register holds no byte. -/
theorem readCommand_completes {sp : Space} {n a : Offset} {s : State} (hheld : (spaceOf s sp).Holds n.toNat) :
    Completes (readCommand sp n a s) := by
  unfold readCommand
  split
  · exact ⟨_, rfl⟩
  · exact withByte_completes hheld (by omega) fun _ => ⟨_, rfl⟩

/-! ## Completing: the operations -/

theorem execRaPoll_completes (m : Mode) (s : State) : Completes (execRaPoll m s) := by
  refine guarded_completes ?_
  split
  · exact ⟨_, rfl⟩
  · split <;> exact ⟨_, rfl⟩

theorem execRaRxrd_completes {a : Offset} {s : State} (hs : s.Inv) : Completes (execRaRxrd a s) := by
  refine guarded_completes ?_
  split
  · exact ⟨_, rfl⟩
  · exact readCommand_completes hs.rxbufHolds

/-- Once handed off, `RXBUF` holds a byte at every offset of the block that is validated. -/
theorem execBcValidate_completes {m : Mode} {s : State} (hs : s.Inv) : Completes (execBcValidate m s) := by
  refine guarded_completes ?_
  split
  · exact ⟨_, rfl⟩
  · rename_i hpre
    have hlen : s.raWoff.toNat = 3 + payloadLen m + 2 := not_not.1 (not_or.1 hpre).2
    have hheld : (spaceOf s .rxbuf).Holds (3 + payloadLen m + 2) := hlen ▸ hs.rxbufHolds
    refine withByte_completes hheld (by omega) fun marker => withByte_completes hheld (by omega) fun seq =>
      withByte_completes hheld (by omega) fun compl => withBytes_completes hheld (by omega) fun payload =>
      withByte_completes hheld (by omega) fun high => withByte_completes hheld (by omega) fun low => ?_
    split <;> exact ⟨_, rfl⟩

theorem execBcSeqchk_completes (r : Byte) (s : State) : Completes (execBcSeqchk r s) := by
  refine guarded_completes ?_
  dsimp only
  split
  · exact ⟨_, rfl⟩
  · split <;> exact ⟨_, rfl⟩

/-- A block of either mode fits `TXBUF`. -/
theorem execBcBuild_completes (m : Mode) (q : Byte) (src : List Byte) (s : State) :
    Completes (execBcBuild m q src s) := by
  refine guarded_completes ?_
  split
  · exact ⟨_, rfl⟩
  · have hlen : (builtBlock m q src).length = blockLen m := length_builtBlock (by omega)
    exact withFill_completes (hlen ▸ blockLen_le m) fun _ => ⟨_, rfl⟩

/-- A message has at most `FRAG_MAX` bytes, and the capacity test comes before the append (41_reassembler.md R90). -/
theorem execRaFrag_completes {f : List Byte} {s : State} (hmax : f.length ≤ s.cfg.fragMax) :
    Completes (execRaFrag f s) := by
  refine guarded_completes ?_
  split
  · exact withFill_completes hmax fun _ => ⟨_, rfl⟩
  · split
    · split
      · exact ⟨_, rfl⟩
      · rename_i hroom
        rw [withWrite_fits (by simpa [blockCapacity] using hroom)]
        exact ⟨_, rfl⟩
    · exact withFill_completes hmax fun _ => ⟨_, rfl⟩

/-- Every well-formed operation completes in every sound state, whether or not a fault is latched. -/
theorem exec_completes {i : Instr} {s : State} (hs : s.Inv) (hi : WellFormed s.cfg i = true) :
    Completes (exec i s) := by
  cases i with
  | raPoll m => exact execRaPoll_completes m s
  | raMsgrd a => exact guarded_completes (readCommand_completes hs.msgHolds)
  | raRxrd a => exact execRaRxrd_completes hs
  | bcValidate m => exact execBcValidate_completes hs
  | bcSeqchk r => exact execBcSeqchk_completes r s
  | bcBuild m q src => exact execBcBuild_completes m q src s
  | bcTxrd a => exact guarded_completes (readCommand_completes hs.txbufHolds)
  | raFrag f => exact execRaFrag_completes (of_decide_eq_true hi)
  | sysStat => exact ⟨_, rfl⟩
  | _ => rw [exec]; exact guarded_completes ⟨_, rfl⟩

/-! ## While a fault is latched (60_exceptions.md R143, R144) -/

/-- Every operation but `SYS.STAT` begins with the latched-fault check, on its own port. -/
theorem exec_latched {i : Instr} {s : State} (hfault : s.sysFault ≠ 0) (hi : i ≠ .sysStat) :
    exec i s = answerFault (portOf i) s := by
  cases i with
  | sysStat => exact absurd rfl hi
  | _ => rw [exec]; exact guarded_latched hfault

theorem exec_sysFault_of_latched {i : Instr} {s t : State} (hfault : s.sysFault ≠ 0) (h : exec i s = .next t) :
    t.sysFault = s.sysFault := by
  by_cases hi : i = .sysStat
  · subst hi
    rw [execSysStat_next h, answer_sysFault]
  · rw [exec_latched hfault hi] at h
    rw [respond_next h, answer_sysFault]

/-- No operation clears a latched fault. -/
theorem unfaulted_of_exec {i : Instr} {s t : State} (h : exec i s = .next t) (ht : t.Unfaulted) : s.Unfaulted := by
  by_contra hfault
  exact hfault ((exec_sysFault_of_latched hfault h).symm.trans ht)

/-! ## One operation after another -/

theorem execAll_cons {i : Instr} {s u : State} (h : exec i s = .next u) (is : List Instr) :
    execAll (i :: is) s = execAll is u := by simp only [execAll, h]

theorem execAll_cons_next {i : Instr} {is : List Instr} {s t : State} (h : execAll (i :: is) s = .next t) :
    ∃ u, exec i s = .next u ∧ execAll is u = .next t := by
  unfold execAll at h
  split at h
  · exact ⟨_, ‹_›, h⟩
  · cases h
  · cases h

theorem execAll_append_next {is js : List Instr} {s t : State} (h : execAll (is ++ js) s = .next t) :
    ∃ u, execAll is s = .next u ∧ execAll js u = .next t := by
  induction is generalizing s with
  | nil => exact ⟨s, rfl, h⟩
  | cons i is ih =>
    obtain ⟨u, hu, hrest⟩ := execAll_cons_next h
    rw [execAll_cons hu]
    exact ih hrest

/-- A trace of well-formed operations completes: each operation leaves a sound state of the same configuration. -/
theorem execAll_completes {is : List Instr} {s : State} (hs : s.Inv) (hwf : ∀ i ∈ is, WellFormed s.cfg i = true) :
    Completes (execAll is s) := by
  induction is generalizing s with
  | nil => exact ⟨s, rfl⟩
  | cons i is ih =>
    obtain ⟨hi, his⟩ := List.forall_mem_cons.1 hwf
    obtain ⟨u, hu⟩ := exec_completes hs hi
    have hkeep : KeepsSound s u := exec_keepsSound hu
    rw [execAll_cons hu]
    exact ih (hkeep.inv hs) (hkeep.cfg_eq ▸ his)

/-- A trace that ends with no fault latched began with none latched. -/
theorem unfaulted_of_execAll {is : List Instr} {s t : State} (h : execAll is s = .next t) (ht : t.Unfaulted) :
    s.Unfaulted := by
  induction is generalizing s with
  | nil => exact Host.Outcome.next.inj h ▸ ht
  | cons i is ih =>
    obtain ⟨u, hu, hrest⟩ := execAll_cons_next h
    exact unfaulted_of_exec hu (ih hrest)

end Sys2Proof.Machine
end

section
/-! PROOFS. The two clauses that the statement of a host command shares with the others: the illegal words with its
opcode (30_encoding.md R54), and its refusal while a fault is latched (60_exceptions.md R143). -/

namespace Sys2Proof.Machine

open Sys2Proof.Spec

theorem opField_of_ushiftRight {w : Word} {code : Byte} (h : w >>> 24 = code.zeroExtend 32) : opField w = code := by
  refine BitVec.eq_of_getLsbD_eq fun k hk => ?_
  simpa [opField, hk, show k < 32 by omega] using congrArg (fun x : Word => x.getLsbD k) h

theorem opCode_injective : Function.Injective opCode := fun o o' h =>
  Option.some.inj (by rw [← opOfCode_opCode o, ← opOfCode_opCode o', h])

/-- A word with the opcode of a row can match no other row, so one that does not match its own is illegal. -/
theorem illegalForms (o : Op) : IllegalForms ((opCode o).zeroExtend 32) (rowMatch o) (rowMask o) := by
  intro w p s h0 hop hrow
  refine wordMatchingNoRowIsIllegal.2 w p s h0 ((forall_rows_ne_iff w).2 fun o' hmatch => ?_)
  have hcode : opCode o = opCode o' := (opField_of_ushiftRight hop).symm.trans ((row_matches_iff o' w).1 hmatch).1
  exact hrow (opCode_injective hcode ▸ hmatch)

/-- A command other than `SYS.STAT` has its rule as soon as its word decodes to it. -/
theorem commandRule {i : Instr} {w : Word} {p : List Byte} (hdecode : decodeCommand ⟨w, p⟩ = .ok i)
    (hport : portOf i = .host) (hi : i ≠ .sysStat) : CommandRule i w p := by
  refine ⟨fun _ => hdecode, fun s hfault => ?_⟩
  rw [exec_latched hfault hi, hport, answerFault_eq, responseWord_fault]
  rfl

end Sys2Proof.Machine
end

section
/-! PROOFS. The Checksum Engine (40_crc.md): the table, the function `crc16_arc`, the three `CRC` commands, and that a
streamed CRC is the function of its bytes whatever is interleaved. -/

namespace Sys2Proof.Machine

open Sys2Proof.Spec

/-! ## The table (40_crc.md R81) -/

/-- Testing the bit that falls out is testing the word under the mask 1. -/
theorem tableShift_eq (c : HalfWord) :
    tableShift c = if c &&& 1 = 1 then (c >>> 1) ^^^ 0xA001 else c >>> 1 := by
  have hbit : c.getLsbD 0 = true ↔ c &&& 1 = 1 := by
    rw [show (1 : HalfWord) = 1#16 from rfl, BitVec.and_one_eq_setWidth_ofBool_getLsbD]
    cases c.getLsbD 0 <;> decide
  simp only [tableShift, hbit]

theorem tableShifts_eq_iterate (k : Nat) (c : HalfWord) : tableShifts k c = tableShift^[k] c := by
  induction k generalizing c with
  | zero => rfl
  | succ k ih => exact ih (tableShift c)

theorem tableEntry_eq_foldl (i : Byte) :
    tableEntry i = (List.range 8).foldl (fun (c : HalfWord) _ => if c &&& 1 = 1 then (c >>> 1) ^^^ 0xA001 else c >>> 1)
      (i.zeroExtend 16) := by
  simp only [← tableShift_eq]
  rw [List.foldl_const, List.length_range, tableEntry, tableShifts_eq_iterate]

/-- The 256 entries listed, against the entries computed. -/
theorem listing_eq_map_tableEntry :
    tableLow ++ tableHigh = (List.range 256).map fun k => tableEntry (BitVec.ofNat 8 k) := by decide +kernel

/-- Settles O27: the eight-step loop is the model's eight shifts, and the listing is the table in index order. -/
theorem tableIsTheListedTable : Obligations.TableIsTheListedTable := by
  intro i
  refine ⟨tableEntry_eq_foldl i, ?_⟩
  rw [listing_eq_map_tableEntry, List.getElem?_map, List.getElem?_range i.isLt]
  simp

/-! ## The function (40_crc.md R80) -/

theorem crc16Arc_concat (bs : List Byte) (b : Byte) : crc16Arc (bs ++ [b]) = crcStep (crc16Arc bs) b :=
  List.foldl_append

/-- Entry 0 of the table is 0, so a zero byte leaves the initial accumulator at 0. -/
theorem crcStep_zero : crcStep 0 0 = 0 := by decide

theorem crc16Arc_leading_zeros (n : Nat) (bs : List Byte) : crc16Arc (List.replicate n 0 ++ bs) = crc16Arc bs := by
  induction n with
  | zero => rfl
  | succ n ih => rwa [List.replicate_succ, List.cons_append, crc16Arc, List.foldl_cons, crcStep_zero]

theorem crc16Arc_zeros (n : Nat) : crc16Arc (List.replicate n 0) = 0 := by
  rw [← List.append_nil (List.replicate n 0), crc16Arc_leading_zeros]
  rfl

/-- Settles O28: the CRC is a fold of the table step, and leading zero bytes keep its accumulator at 0. -/
theorem crcIsTheTableRecurrence : Obligations.CrcIsTheTableRecurrence :=
  ⟨rfl, crc16Arc_concat, crc16Arc_zeros, crc16Arc_leading_zeros⟩

/-- Settles O29, by evaluating the model on the nine bytes. -/
theorem crcCheckValue : Obligations.CrcCheckValue := by
  unfold Obligations.CrcCheckValue
  decide

/-! ## The commands with no fault latched (40_crc.md R82 to R84) -/

theorem exec_crcInit_unlatched {s : State} (h0 : s.sysFault = 0) :
    exec .crcInit s = .next { s with crcAcc := 0x0000, hostOut := s.hostOut ++ [0x00000000] } := by
  rw [exec, execCrcInit, guarded_unlatched h0]
  rfl

theorem exec_crcUpd_unlatched {s : State} (b : Byte) (h0 : s.sysFault = 0) :
    exec (.crcUpd b) s = .next
      { s with crcAcc := crcStep s.crcAcc b, hostOut := s.hostOut ++ [accWord (crcStep s.crcAcc b)] } := by
  rw [exec, execCrcUpd, guarded_unlatched h0, respond_eq, responseWord_crcData]
  rfl

theorem exec_crcGet_unlatched {s : State} (h0 : s.sysFault = 0) :
    exec .crcGet s = .next { s with hostOut := s.hostOut ++ [accWord s.crcAcc] } := by
  rw [exec, execCrcGet, guarded_unlatched h0, respond_eq, responseWord_crcData]
  rfl

theorem decodeCommand_crcUpd (b : Byte) :
    decodeCommand ⟨0x11000000 ||| b.zeroExtend 32, []⟩ = .ok (.crcUpd b) := by
  have hword : 0x11000000 ||| b.zeroExtend 32 = assemble (opCode .crcUpd) 0 0 b := by revert b; decide
  rw [hword, decodeCommand_eq_ok_iff]
  exact ⟨.crcUpd, by simp, by simp, by simp [hasStrayOperand, byteMask], rfl, by simp [instrOf]⟩

/-- Settles O31: its effect, then the rule of its one word and the row of its opcode. -/
theorem crcInitZeroesTheAccumulator : Obligations.CrcInitZeroesTheAccumulator :=
  ⟨fun _ h0 => exec_crcInit_unlatched h0, commandRule (by decide) rfl nofun, illegalForms .crcInit⟩

/-- Settles O32: its effect, then the rule of the word of each byte and the row of its opcode. -/
theorem crcUpdFeedsOneByte : Obligations.CrcUpdFeedsOneByte := by
  refine ⟨fun s b acc h0 hacc => ?effect, fun b => commandRule (decodeCommand_crcUpd b) rfl nofun, illegalForms .crcUpd⟩
  case effect =>
    subst hacc
    exact exec_crcUpd_unlatched b h0

/-- Settles O33: its effect, then the rule of its one word and the row of its opcode. -/
theorem crcGetReadsTheAccumulator : Obligations.CrcGetReadsTheAccumulator :=
  ⟨fun _ h0 => exec_crcGet_unlatched h0, commandRule (by decide) rfl nofun, illegalForms .crcGet⟩

/-! ## The accumulator along a trace (40_crc.md R85) -/

/-- What an operation makes of the accumulator with no fault latched: only `CRC.INIT` and `CRC.UPD` write it. -/
def crcAfter (acc : HalfWord) : Instr → HalfWord
  | .crcInit => 0
  | .crcUpd b => crcStep acc b
  | _ => acc

theorem exec_crcAcc {i : Instr} {s t : State} (h0 : s.sysFault = 0) (h : exec i s = .next t) :
    t.crcAcc = crcAfter s.crcAcc i := by
  cases i with
  | sysStat => exact execSysStat_next h ▸ answer_crcAcc ..
  | sysCfg b => rcases execSysCfg_next h with ⟨-, rfl⟩ | ⟨-, rfl⟩ <;> exact answer_crcAcc ..
  | crcInit =>
    obtain rfl := Host.Outcome.next.inj ((exec_crcInit_unlatched h0).symm.trans h)
    rfl
  | crcUpd b =>
    obtain rfl := Host.Outcome.next.inj ((exec_crcUpd_unlatched b h0).symm.trans h)
    rfl
  | crcGet =>
    obtain rfl := Host.Outcome.next.inj ((exec_crcGet_unlatched h0).symm.trans h)
    rfl
  | raArm => rcases execRaArm_next h with ⟨-, rfl⟩ | ⟨-, rfl⟩ <;> exact answer_crcAcc ..
  | raPoll m =>
    rcases execRaPoll_next h with ⟨-, rfl⟩ | ⟨-, -, rfl⟩ | ⟨-, -, rfl⟩ | ⟨-, -, rfl⟩ <;> exact answer_crcAcc ..
  | raStat => rcases execRaStat_next h with ⟨-, rfl⟩ | ⟨-, rfl⟩ <;> exact answer_crcAcc ..
  | raMsgrd a =>
    rcases execRaMsgrd_next h with ⟨-, rfl⟩ | ⟨-, -, rfl⟩ | ⟨-, -, _, -, rfl⟩ <;> exact answer_crcAcc ..
  | raMsgclr => rcases execRaMsgclr_next h with ⟨-, rfl⟩ | ⟨-, rfl⟩ <;> exact answer_crcAcc ..
  | raRxrd a =>
    rcases execRaRxrd_next h with ⟨-, rfl⟩ | ⟨-, -, rfl⟩ | ⟨-, -, -, rfl⟩ | ⟨-, -, -, _, -, rfl⟩ <;>
      exact answer_crcAcc ..
  | bcValidate m =>
    rcases execBcValidate_next h with ⟨-, rfl⟩ | ⟨-, -, rfl⟩ |
      ⟨-, -, -, _, _, _, _, _, _, -, -, -, -, -, -, ⟨-, rfl⟩ | ⟨-, rfl⟩⟩ <;> exact answer_crcAcc ..
  | bcSeqchk r =>
    rcases execBcSeqchk_next h with ⟨-, rfl⟩ | ⟨-, -, rfl⟩ | ⟨-, -, -, rfl⟩ | ⟨-, -, -, rfl⟩ <;> exact answer_crcAcc ..
  | bcSeqinit => rcases execBcSeqinit_next h with ⟨-, rfl⟩ | ⟨-, rfl⟩ <;> exact answer_crcAcc ..
  | bcBuild m q src =>
    rcases execBcBuild_next h with ⟨-, rfl⟩ | ⟨-, -, rfl⟩ | ⟨-, -, rfl⟩ <;> exact answer_crcAcc ..
  | bcTxrd a =>
    rcases execBcTxrd_next h with ⟨-, rfl⟩ | ⟨-, -, rfl⟩ | ⟨-, -, _, -, rfl⟩ <;> exact answer_crcAcc ..
  | raFrag f =>
    rcases execRaFrag_next h with ⟨-, rfl⟩ | ⟨-, -, -, _, rfl, rfl⟩ | ⟨-, -, -, -, rfl⟩ | ⟨-, -, -, -, _, rfl, rfl⟩ |
      ⟨-, -, -, -, _, rfl, rfl⟩ <;> exact answer_crcAcc ..

/-- Along a trace that latches no fault the accumulator is the fold of the operations' effects on it. -/
theorem execAll_crcAcc {is : List Instr} {s t : State} (h : execAll is s = .next t) (ht : t.Unfaulted) :
    t.crcAcc = is.foldl crcAfter s.crcAcc := by
  induction is generalizing s with
  | nil => exact Host.Outcome.next.inj h ▸ rfl
  | cons i is ih =>
    obtain ⟨u, hu, hrest⟩ := execAll_cons_next h
    rw [ih hrest, List.foldl_cons, exec_crcAcc (unfaulted_of_execAll h ht) hu]

theorem crcAfter_of_not_isCrc {i : Instr} (hi : ¬ isCrc i = true) (acc : HalfWord) : crcAfter acc i = acc := by
  cases i with
  | crcInit | crcUpd b | crcGet => exact absurd rfl hi
  | _ => rfl

/-- What is interleaved has no effect on the accumulator. -/
theorem foldl_crcAfter_filter_isCrc (is : List Instr) (acc : HalfWord) :
    (is.filter isCrc).foldl crcAfter acc = is.foldl crcAfter acc := by
  have hskip : (fun acc i => if isCrc i = true then crcAfter acc i else acc) = crcAfter := by
    funext acc i
    split
    · rfl
    · exact (crcAfter_of_not_isCrc ‹_› acc).symm
  rw [List.foldl_filter, hskip]

/-- From accumulator 0, the updates with the bytes of a string leave its CRC. -/
theorem foldl_crcAfter_eq_crc16Arc {is : List Instr} {bs : List Byte} (h : is.filter isCrc = bs.map .crcUpd) :
    is.foldl crcAfter 0 = crc16Arc bs := by
  rw [← foldl_crcAfter_filter_isCrc, h, List.foldl_map]
  rfl

/-- Settles O34: the trace completes because each operation does and keeps the state sound; with no fault latched at its
end none was latched before, so the accumulator is the fold of the updates alone, and `CRC.GET` answers it. -/
theorem streamedCrcIsTheFunction : Obligations.StreamedCrcIsTheFunction := by
  intro s mid bs hs hmid hcrc
  have hwf : ∀ i ∈ .crcInit :: mid ++ [.crcGet], WellFormed s.cfg i = true := by
    simpa [or_imp, forall_and, WellFormed] using hmid
  obtain ⟨t, ht⟩ := execAll_completes hs hwf
  refine ⟨t, ht, fun hfault => ?_⟩
  obtain ⟨u, hu, hget⟩ := execAll_append_next ht
  have hfault' : u.Unfaulted := unfaulted_of_execAll hget hfault
  have hacc : u.crcAcc = crc16Arc bs := (execAll_crcAcc hu hfault').trans (foldl_crcAfter_eq_crc16Arc hcrc)
  rw [execAll_cons (exec_crcGet_unlatched hfault')] at hget
  obtain rfl := Host.Outcome.next.inj hget
  exact ⟨hacc, by simp [hacc]⟩

end Sys2Proof.Machine
end

section
/-! PROOFS. The Fragment Reassembler's operations one by one (41_reassembler.md R90 to R96): the words they answer, their
branches with no fault latched, and the command words that decode to them. -/

namespace Sys2Proof.Machine

open Sys2Proof.Spec

/-! ## Responses and faults with the words of the spec -/

theorem eotFlag_eq_eot (s : State) : eotFlag s = eot s :=
  Bool.eq_iff_iff.2 (by rw [eotFlag_iff, eot, decide_eq_true_iff])

/-- A host response with `stat` carries the spec's `stat` word and changes nothing else. -/
theorem respond_statData (c : Code) (s s' : State) :
    respond .host c (statData s') s = .next { s with hostOut := s.hostOut ++ [statWord (codeBits c) s'] } := by
  rw [respond_eq, responseWord_statData, eotFlag_eq_eot]
  rfl

/-- A fragment response carries the spec's word of the two length registers and changes nothing else. -/
theorem respond_fragData (c : Code) (s : State) :
    respond .fragment c (fragData s) s =
      .next { s with fragOut := s.fragOut ++ [fragWord (codeBits c) s.raMsglen s.raWoff] } := by
  rw [respond_eq, responseWord_fragData]
  rfl

/-- A fault raised on the fragment port with none latched: its code is latched, the `FAULT` word is given, and nothing
else changes (60_exceptions.md R142). -/
theorem raiseFault_fragment {c : FaultCode} {s : State} (h0 : s.sysFault = 0) :
    raiseFault .fragment c s =
      .next { s with sysFault := faultBits c, fragOut := s.fragOut ++ [faultWord (faultBits c)] } := by
  rw [raiseFault_unlatched h0, responseWord_fault]
  rfl

/-! ## Reading one byte (20_memory.md R33) -/

theorem readCommand_written {sp : Space} {n a : Offset} {s : State} {b : Byte} (ha : a.toNat < n.toNat)
    (hb : Memory.read (spaceOf s sp) a.toNat = some b) :
    readCommand sp n a s = .next { s with hostOut := s.hostOut ++ [byteWord b] } := by
  rw [readCommand, if_neg (by omega), withByte_some hb, respond_eq, responseWord_byteData]
  rfl

theorem readCommand_unwritten {sp : Space} {n a : Offset} {s : State} (h0 : s.sysFault = 0) (ha : n.toNat ≤ a.toNat) :
    readCommand sp n a s = .next { s with sysFault := 6, hostOut := s.hostOut ++ [faultWord 6] } := by
  rw [readCommand, if_pos ha, raiseFault_host h0]
  rfl

theorem execRaMsgrd_unlatched {a : Offset} {s : State} (h0 : s.sysFault = 0) :
    execRaMsgrd a s = readCommand .msg s.raMsglen a s := guarded_unlatched h0

theorem execRaRxrd_handedOff {a : Offset} {s : State} (h0 : s.sysFault = 0) (hcoll : s.raColl = false) :
    execRaRxrd a s = readCommand .rxbuf s.raWoff a s := by
  rw [execRaRxrd, guarded_unlatched h0, if_neg (by simp [hcoll])]

/-! ## Arming and polling -/

theorem exec_raArm_unlatched {s : State} (h0 : s.sysFault = 0) :
    exec .raArm s = .next
      { s with rxbuf := [], raWoff := 0, raColl := true, hostOut := s.hostOut ++ [0x00000000] } := by
  rw [exec, execRaArm, guarded_unlatched h0, setLength, truncate_zero]
  rfl

theorem execRaPoll_greater {m : Mode} {s : State} (h0 : s.sysFault = 0) (hlen : s.raWoff.toNat > blockLen m) :
    execRaPoll m s = raiseFault .host .blockOverrun s := by
  rw [execRaPoll, guarded_unlatched h0, if_pos hlen]

/-! ## A fragment while collecting -/

/-- The state with `f` written at `RA_WOFF`, and `RA_WOFF` after it (41_reassembler.md R90). -/
def appended (f : List Byte) (s : State) : State :=
  { s with
    rxbuf := Memory.writeBytes s.rxbuf s.raWoff.toNat f
    raWoff := BitVec.ofNat 11 (s.raWoff.toNat + f.length) }

theorem execRaFrag_append {f : List Byte} {s : State} (h0 : s.sysFault = 0) (hf : f ≠ [eotByte])
    (hcoll : s.raColl = true) (hfit : s.raWoff.toNat + f.length ≤ 1029) :
    execRaFrag f s = respond .fragment .fragAppended (fragData (appended f s)) (appended f s) := by
  rw [execRaFrag, guarded_unlatched h0, if_neg hf, if_pos hcoll, if_neg (by rw [blockCapacity]; omega),
    withWrite_fits (by simpa using hfit)]
  rfl

theorem execRaFrag_overflow {f : List Byte} {s : State} (h0 : s.sysFault = 0) (hf : f ≠ [eotByte])
    (hcoll : s.raColl = true) (hover : s.raWoff.toNat + f.length > 1029) :
    execRaFrag f s = raiseFault .fragment .capacityOverflow s := by
  rw [execRaFrag, guarded_unlatched h0, if_neg hf, if_pos hcoll, if_pos (by exact hover)]

/-! ## Command words with an offset (30_encoding.md R53) -/

/-- A row's `match` with an offset put into bits 18:8. -/
theorem rowMatch_or_offset (o : Op) (a : Offset) :
    rowMatch o ||| (a.zeroExtend 32 <<< 8) = assemble (opCode o) 0 a 0 := by
  refine BitVec.eq_of_getLsbD_eq fun i hi => ?_
  simp only [rowMatch, assemble_eq, BitVec.getLsbD_or, getLsbD_fiveFields, BitVec.getLsbD_shiftLeft,
    BitVec.truncate_eq_setWidth, BitVec.getLsbD_setWidth]
  by_cases h8 : i < 8
  · simp [h8]
  · by_cases h19 : i < 19
    · simp [h8, h19, hi, show i - 8 < 32 by omega]
    · simp [h8, h19, BitVec.getLsbD_of_ge a (i - 8) (by omega)]

/-- Every offset is an operand of a command that has one, and such a command without payload has no other. -/
theorem decodeCommand_offset {o : Op} (hcount : usesCount o = true) (hpayload : o ≠ .bcBuild) (a : Offset) :
    decodeCommand ⟨rowMatch o ||| (a.zeroExtend 32 <<< 8), []⟩ = .ok (instrOf o .short a 0 []) := by
  rw [rowMatch_or_offset, decodeCommand_eq_ok_iff]
  refine ⟨o, by simp, by simp, by simp [hasStrayOperand, hcount], ?_, by simp [modeOfBit]⟩
  cases o with
  | bcBuild => exact absurd rfl hpayload
  | _ => rfl

/-! ## The statements -/

/-- Settles O35: one lemma per branch, in the order of the tests. -/
theorem raFragTakesItsThreeBranches : Obligations.RaFragTakesItsThreeBranches := by
  refine ⟨fun s h0 hcfg => ?sentinel, fun s f woff h0 hf hcoll hfit hwoff => ?append,
    fun s f h0 hf hcoll hover => (execRaFrag_overflow h0 hf hcoll hover).trans (raiseFault_fragment h0),
    fun s f len h0 hf hcoll hcfg hmax hlen => ?message,
    fun cfg f hmax => (decodeFragment_eq_ok_iff cfg f _).2 ⟨hmax, rfl⟩, fun s f hfault => ?latched⟩
  case sentinel => exact (execRaFrag_sentinel h0 hcfg.1).trans (respond_fragData _ _)
  case append =>
    subst hwoff
    exact ⟨_, (execRaFrag_append h0 hf hcoll hfit).trans (respond_fragData _ _), read_writeBytes _ _ _, rfl⟩
  case message =>
    obtain rfl : BitVec.ofNat 11 f.length = len := by rw [← hlen, BitVec.ofNat_toNat, BitVec.setWidth_eq]
    exact ⟨_, (execRaFrag_message h0 hf hcoll hmax).trans (respond_fragData _ _),
      fun a => by simp [recorded, read_cellsAt], rfl⟩
  case latched =>
    rw [exec_latched hfault (by simp), answerFault_eq, responseWord_fault]
    rfl

/-- Settles O38: the three outcomes of comparing `RA_WOFF` with `L(m)`, then both words and the row. -/
theorem raPollHandsOffAtExactlyTheBlockLength : Obligations.RaPollHandsOffAtExactlyTheBlockLength :=
  ⟨fun _ _ h0 heq => (execRaPoll_equal h0 heq).trans (respond_statData ..),
    fun _ _ h0 hlt => (execRaPoll_less h0 hlt).trans (respond_statData ..),
    fun _ _ h0 hgt => (execRaPoll_greater h0 hgt).trans (raiseFault_host h0), rfl, rfl,
    commandRule (by decide) rfl nofun, commandRule (by decide) rfl nofun, illegalForms .raPoll⟩

/-- Settles O40: a read below and a read beyond `RA_MSGLEN`, then the word of each offset and the row. -/
theorem raMsgrdReadsOneByteOfTheMessage : Obligations.RaMsgrdReadsOneByteOfTheMessage :=
  ⟨fun _ _ _ h0 ha hb => (execRaMsgrd_unlatched h0).trans (readCommand_written ha hb),
    fun _ _ h0 ha => (execRaMsgrd_unlatched h0).trans (readCommand_unwritten h0 ha),
    fun a => commandRule (decodeCommand_offset (o := .raMsgrd) rfl nofun a) rfl nofun, illegalForms .raMsgrd⟩

/-- Settles O42: the owner test, then a read below and a read beyond `RA_WOFF`; the word of each offset and the row. -/
theorem raRxrdReadsOneByteAfterHandOff : Obligations.RaRxrdReadsOneByteAfterHandOff :=
  ⟨fun _ _ _ h0 hcoll ha hb => (execRaRxrd_handedOff h0 hcoll).trans (readCommand_written ha hb),
    fun _ _ h0 hcoll => (execRaRxrd_collecting h0 hcoll).trans (raiseFault_host h0),
    fun _ _ h0 hcoll ha => (execRaRxrd_handedOff h0 hcoll).trans (readCommand_unwritten h0 ha),
    fun a => commandRule (decodeCommand_offset (o := .raRxrd) rfl nofun a) rfl nofun, illegalForms .raRxrd⟩

/-- Settles O37: its effect, then the rule of its one word and the row of its opcode. -/
theorem raArmEmptiesAndCollects : Obligations.RaArmEmptiesAndCollects :=
  ⟨fun _ h0 => exec_raArm_unlatched h0, commandRule (by decide) rfl nofun, illegalForms .raArm⟩

/-- Settles O39: its answer, then the rule of its one word and the row of its opcode. -/
theorem raStatReportsAndWritesNothing : Obligations.RaStatReportsAndWritesNothing :=
  ⟨fun _ h0 => (execRaStat_unlatched h0).trans (respond_statData ..), commandRule (by decide) rfl nofun,
    illegalForms .raStat⟩

/-- Settles O41: its effect, then the rule of its one word and the row of its opcode. -/
theorem raMsgclrForgetsTheMessage : Obligations.RaMsgclrForgetsTheMessage :=
  ⟨fun _ h0 => (execRaMsgclr_unlatched h0).trans rfl, commandRule (by decide) rfl nofun, illegalForms .raMsgclr⟩

end Sys2Proof.Machine
end

section
/-! PROOFS. Reassembly (41_reassembler.md R97): a fragment that fits adds its bytes to those collected, no other operation
but `RA.ARM` and `RA.POLL` touches what is collected, and so a trace collects its fragments in order. -/

namespace Sys2Proof.Machine

/-! ## What is collected -/

/-- The block is collecting, and `RXBUF` holds `B` up to `RA_WOFF`. -/
structure Collected (B : List Byte) (s : State) : Prop where
  woff : s.raWoff.toNat = B.length
  coll : s.raColl = true
  bytes : Memory.readBytes s.rxbuf 0 B.length = some B

/-- Bytes written right after a run of bytes lengthen the run. -/
theorem readBytes_writeBytes_append {m : Memory} {B : List Byte} (h : Memory.readBytes m 0 B.length = some B)
    (f : List Byte) : Memory.readBytes (m.writeBytes B.length f) 0 (B ++ f).length = some (B ++ f) := by
  rw [List.length_append, readBytes_append]
  constructor
  · rw [← h]
    exact readBytes_congr fun k hk => read_writeBytes_outside (.inl (by omega))
  · refine (readBytes_eq_some_iff ..).2 ⟨rfl, fun k hk => ?_⟩
    rw [read_writeBytes, if_pos (by omega), Nat.zero_add, Nat.add_sub_cancel_left]

theorem collected_appended {B f : List Byte} {s : State} (h : Collected B s) (hfit : (B ++ f).length ≤ 1029) :
    Collected (B ++ f) (appended f s) where
  woff := by
    rw [appended, h.woff, ← List.length_append]
    exact toNat_ofNat_of_lt_2048 (by omega)
  coll := h.coll
  bytes := by
    rw [appended, h.woff]
    exact readBytes_writeBytes_append h.bytes f

/-! ## What leaves it alone -/

/-- `t` has the collected bytes of `s`, and no `CAPACITY_OVERFLOW` that `s` has not. -/
structure KeepsCollected (s t : State) : Prop where
  rxbuf_eq : t.rxbuf = s.rxbuf
  raWoff_eq : t.raWoff = s.raWoff
  raColl_eq : t.raColl = s.raColl
  noOverflow : s.sysFault ≠ 1 → t.sysFault ≠ 1

namespace KeepsCollected

theorem collected {B : List Byte} {s t : State} (h : KeepsCollected s t) (hs : Collected B s) : Collected B t where
  woff := h.raWoff_eq ▸ hs.woff
  coll := h.raColl_eq ▸ hs.coll
  bytes := h.rxbuf_eq ▸ hs.bytes

theorem answered {p : Port} {c : Code} {data : BitVec 28} {s s' t : State} (hs : KeepsCollected s s')
    (h : AnsweredTo p c data s' t) : KeepsCollected s t := by
  subst h
  exact ⟨(answer_rxbuf ..).trans hs.rxbuf_eq, (answer_raWoff ..).trans hs.raWoff_eq,
    (answer_raColl ..).trans hs.raColl_eq, fun h => answer_sysFault p _ s' ▸ hs.noOverflow h⟩

/-- An update of other fields keeps what is collected: the four equations hold by computation. -/
theorem unchanged {s s' : State} (hrxbuf : s'.rxbuf = s.rxbuf := by rfl) (hwoff : s'.raWoff = s.raWoff := by rfl)
    (hcoll : s'.raColl = s.raColl := by rfl) (hfault : s'.sysFault = s.sysFault := by rfl) : KeepsCollected s s' :=
  ⟨hrxbuf, hwoff, hcoll, fun h => hfault ▸ h⟩

theorem refused {p : Port} {s t : State} (h : RefusedTo p s t) : KeepsCollected s t := answered unchanged h.2

/-- Of the six faults only `CAPACITY_OVERFLOW` has the code 1. -/
theorem raised {p : Port} {c : FaultCode} {s t : State} (hc : faultBits c ≠ 1) (h : RaisedTo p c s t) :
    KeepsCollected s t :=
  answered (s' := { s with sysFault := faultBits c }) ⟨rfl, rfl, rfl, fun _ => hc⟩ h.2

end KeepsCollected

open KeepsCollected Sys2Proof.Spec

/-- `RA.FRAG` writes `RXBUF` and raises `CAPACITY_OVERFLOW`, `RA.ARM` and `RA.POLL` write what is collected or who owns
it, and no other operation does any of this. -/
theorem exec_keepsCollected {i : Instr} {s t : State} (hfrag : fragmentOf i = none)
    (hi : i ≠ .raArm ∧ ∀ m, i ≠ .raPoll m) (h : exec i s = .next t) : KeepsCollected s t := by
  cases i with
  | raFrag f => cases hfrag
  | raArm => exact absurd rfl hi.1
  | raPoll m => exact absurd rfl (hi.2 m)
  | sysStat => exact answered unchanged (execSysStat_next h)
  | sysCfg b => exact (execSysCfg_next h).elim refused fun ha => answered unchanged ha.2
  | crcInit => exact (execCrcInit_next h).elim refused fun ha => answered unchanged ha.2
  | crcUpd b => exact (execCrcUpd_next h).elim refused fun ha => answered unchanged ha.2
  | crcGet => exact (execCrcGet_next h).elim refused fun ha => answered unchanged ha.2
  | raStat => exact (execRaStat_next h).elim refused fun ha => answered unchanged ha.2
  | raMsgclr => exact (execRaMsgclr_next h).elim refused fun ha => answered unchanged ha.2
  | bcSeqinit => exact (execBcSeqinit_next h).elim refused fun ha => answered unchanged ha.2
  | raMsgrd a =>
    rcases execRaMsgrd_next h with hr | ⟨-, hf⟩ | ⟨-, -, _, -, ha⟩
    · exact refused hr
    · exact raised (by decide) hf
    · exact answered unchanged ha
  | raRxrd a =>
    rcases execRaRxrd_next h with hr | ⟨-, hf⟩ | ⟨-, -, hf⟩ | ⟨-, -, -, _, -, ha⟩
    · exact refused hr
    · exact raised (by decide) hf
    · exact raised (by decide) hf
    · exact answered unchanged ha
  | bcValidate m =>
    rcases execBcValidate_next h with
      hr | ⟨-, hf⟩ | ⟨-, -, -, _, _, _, _, _, _, -, -, -, -, -, -, ⟨-, ha⟩ | ⟨-, ha⟩⟩
    · exact refused hr
    · exact raised (by decide) hf
    · exact answered unchanged ha
    · exact answered unchanged ha
  | bcSeqchk r =>
    rcases execBcSeqchk_next h with hr | ⟨-, -, ha⟩ | ⟨-, -, -, ha⟩ | ⟨-, -, -, ha⟩
    · exact refused hr
    · exact answered unchanged ha
    · exact answered unchanged ha
    · exact answered unchanged ha
  | bcBuild m q src =>
    rcases execBcBuild_next h with hr | ⟨-, hf⟩ | ⟨-, -, ha⟩
    · exact refused hr
    · exact raised (by decide) hf
    · exact answered unchanged ha
  | bcTxrd a =>
    rcases execBcTxrd_next h with hr | ⟨-, hf⟩ | ⟨-, -, _, -, ha⟩
    · exact refused hr
    · exact raised (by decide) hf
    · exact answered unchanged ha

/-! ## Collecting along a trace -/

/-- What a trace after `RA.ARM` keeps: no fragment has overflowed, and unless some fault is latched `B` is collected. -/
structure Collecting (B : List Byte) (s : State) : Prop where
  noOverflow : s.sysFault ≠ 1
  collected : s.Unfaulted → Collected B s

/-- A latched fault stays, so nothing is claimed of the bytes any more. -/
theorem exec_collecting_of_latched {B : List Byte} {i : Instr} {s t : State} (hs : s.sysFault ≠ 1)
    (hfault : s.sysFault ≠ 0) (h : exec i s = .next t) : Collecting B t := by
  have hsame : t.sysFault = s.sysFault := exec_sysFault_of_latched hfault h
  exact ⟨hsame ▸ hs, fun ht => absurd (hsame.symm.trans ht) hfault⟩

theorem exec_collecting_of_no_fragment {B : List Byte} {i : Instr} {s t : State} (hs : Collecting B s)
    (hfrag : fragmentOf i = none) (hi : i ≠ .raArm ∧ ∀ m, i ≠ .raPoll m) (h : exec i s = .next t) :
    Collecting B t := by
  by_cases h0 : s.sysFault = 0
  · have hkeep : KeepsCollected s t := exec_keepsCollected hfrag hi h
    exact ⟨hkeep.noOverflow hs.noOverflow, fun _ => hkeep.collected (hs.collected h0)⟩
  · exact exec_collecting_of_latched hs.noOverflow h0 h

/-- A fragment that is not the sentinel and fits is added at the end of what is collected. -/
theorem exec_raFrag_collecting {B f : List Byte} {s t : State} (hs : Collecting B s) (hf : f ≠ [0x04])
    (hfit : (B ++ f).length ≤ 1029) (h : exec (.raFrag f) s = .next t) : Collecting (B ++ f) t := by
  by_cases h0 : s.sysFault = 0
  · have hB : Collected B s := hs.collected h0
    have happend := execRaFrag_append h0 hf hB.coll (by rwa [hB.woff, ← List.length_append])
    obtain rfl := Host.Outcome.next.inj ((happend.trans (respond_fragData _ _)).symm.trans h)
    obtain ⟨hwoff, hcoll, hbytes⟩ := collected_appended hB hfit
    exact ⟨hs.noOverflow, fun _ => ⟨hwoff, hcoll, hbytes⟩⟩
  · exact exec_collecting_of_latched hs.noOverflow h0 h

theorem eq_raFrag_of_fragmentOf {i : Instr} {f : List Byte} (h : fragmentOf i = some f) : i = .raFrag f := by
  cases i with
  | raFrag g => exact congrArg Instr.raFrag (Option.some.inj h)
  | _ => cases h

/-- A trace collects its fragments in order, wherever they are cut and whatever stands between them. -/
theorem execAll_collecting {is : List Instr} {B : List Byte} {s t : State} (hs : Collecting B s)
    (hallowed : ∀ i ∈ is, i ≠ .raArm ∧ ∀ m, i ≠ .raPoll m) (hfrag : ∀ f ∈ is.filterMap fragmentOf, f ≠ [0x04])
    (hfit : (B ++ (is.filterMap fragmentOf).flatten).length ≤ 1029) (h : execAll is s = .next t) :
    Collecting (B ++ (is.filterMap fragmentOf).flatten) t := by
  induction is generalizing B s with
  | nil =>
    obtain rfl := Host.Outcome.next.inj h
    simpa using hs
  | cons i is ih =>
    obtain ⟨hi, hrestAllowed⟩ := List.forall_mem_cons.1 hallowed
    obtain ⟨u, hu, hrest⟩ := execAll_cons_next h
    cases hfi : fragmentOf i with
    | none =>
      rw [List.filterMap_cons_none hfi] at hfrag hfit ⊢
      exact ih (exec_collecting_of_no_fragment hs hfi hi hu) hrestAllowed hfrag hfit hrest
    | some f =>
      obtain rfl := eq_raFrag_of_fragmentOf hfi
      rw [List.filterMap_cons_some hfi] at hfrag hfit ⊢
      rw [List.flatten_cons, ← List.append_assoc] at hfit ⊢
      obtain ⟨hf, hfrag⟩ := List.forall_mem_cons.1 hfrag
      have hfit' : (B ++ f).length ≤ 1029 := by
        rw [List.length_append] at hfit
        omega
      exact ih (exec_raFrag_collecting hs hf hfit' hu) hrestAllowed hfrag hfit hrest

/-- Settles O43: `RA.ARM` starts the collection with nothing in it, and the rest of the trace collects the fragments. A
trace that ends with no fault latched began with none, so the last clause needs no premise on the first state. -/
theorem reassemblyDoesNotDependOnTheSplit : Obligations.ReassemblyDoesNotDependOnTheSplit := by
  rintro s mid _ hs hmid rfl hallowed hfrag hfit
  have hwf : ∀ i ∈ .raArm :: mid, WellFormed s.cfg i = true := List.forall_mem_cons.2 ⟨rfl, hmid⟩
  obtain ⟨t, ht⟩ := execAll_completes hs hwf
  have hcollecting (h0 : s.sysFault = 0) : Collecting (mid.filterMap fragmentOf).flatten t := by
    rw [execAll_cons (exec_raArm_unlatched h0)] at ht
    exact execAll_collecting (B := []) ⟨by simp [h0], fun _ => ⟨rfl, rfl, rfl⟩⟩ hallowed hfrag hfit ht
  refine ⟨t, ht, fun h0 => (hcollecting h0).noOverflow, fun hfault => ?_⟩
  obtain ⟨hwoff, hcoll, hbytes⟩ := (hcollecting (unfaulted_of_execAll ht hfault)).collected hfault
  exact ⟨hwoff, hcoll, hbytes⟩

end Sys2Proof.Machine
end

section
/-! PROOFS. The Block Codec (42_codec.md R110 to R116): the block of the spec and the one the model builds, the five
`BC` commands one by one, and that what one block builds another reassembles and validates. -/

namespace Sys2Proof.Machine

open Sys2Proof.Spec

/-! ## The complement (42_codec.md R116) -/

theorem toNat_complementOf (q : Byte) : (complementOf q).toNat = 255 - q.toNat := by
  rw [complementOf]
  bv_omega

theorem complOk_iff (q c : Byte) : complOk q c = true ↔ c.toNat + q.toNat = 255 := by
  rw [complOk, beq_iff_eq, ← BitVec.toNat_inj, toNat_complementOf]
  omega

/-- Settles O48: the subtraction is the exclusive-or, the number it leaves, and the one comparison. -/
theorem complementIsBitwise : Obligations.ComplementIsBitwise := fun q c =>
  ⟨complementOf_eq_xor q, toNat_complementOf q, complOk_iff q c⟩

/-! ## The block of the spec (30_encoding.md R62) -/

theorem markerByte_eq (m : Mode) : markerByte m = if m = .short then 0x01 else 0x02 := by cases m <;> rfl

theorem crcHigh_eq_truncate (c : HalfWord) : crcHigh c = (c >>> 8).truncate 8 :=
  (BitVec.setWidth_ushiftRight_eq_extractLsb ..).symm

theorem crcLow_eq_truncate (c : HalfWord) : crcLow c = c.truncate 8 :=
  (BitVec.setWidth_eq_extractLsb' (by decide)).symm

theorem builtBlock_eq_block (m : Mode) (q : Byte) (src : List Byte) : builtBlock m q src = block m q src := by
  simp only [builtBlock, block, markerByte_eq, crcHigh_eq_truncate, crcLow_eq_truncate]
  rfl

theorem length_padded {m : Mode} {src : List Byte} (h : src.length ≤ payloadLen m) :
    (padded m src).length = payloadLen m := length_paddedPayload h

theorem length_block {m : Mode} {q : Byte} {src : List Byte} (h : src.length ≤ payloadLen m) :
    (block m q src).length = blockLen m := builtBlock_eq_block m q src ▸ length_builtBlock h

/-- The bytes of a block, region after region as `BC.VALIDATE` reads them. -/
theorem reads_of_readBytes_block {M : Memory} {m : Mode} {marker q compl high low : Byte} {payload : List Byte}
    (hlen : payload.length = payloadLen m)
    (h : Memory.readBytes M 0 (blockLen m) = some ([marker, q, compl] ++ payload ++ [high, low])) :
    Memory.read M 0 = some marker ∧ Memory.read M 1 = some q ∧ Memory.read M 2 = some compl ∧
      Memory.readBytes M 3 (payloadLen m) = some payload ∧ Memory.read M (3 + payloadLen m) = some high ∧
      Memory.read M (3 + payloadLen m + 1) = some low := by
  have hregions : blockLen m = [marker, q, compl].length + payload.length + [high, low].length := by
    rw [hlen]
    rfl
  rw [hregions, ← List.length_append, readBytes_append, List.length_append, readBytes_append, hlen, Nat.zero_add,
    Nat.zero_add] at h
  obtain ⟨⟨hheader, hpayload⟩, htrailer⟩ := h
  have hheader {k : Nat} (hk : k < 3) := read_of_readBytes hheader hk
  have htrailer {k : Nat} (hk : k < 2) := read_of_readBytes htrailer hk
  exact ⟨hheader (k := 0) (by decide), hheader (k := 1) (by decide), hheader (k := 2) (by decide), hpayload,
    htrailer (k := 0) (by decide), htrailer (k := 1) (by decide)⟩

/-! ## `BC.VALIDATE` (42_codec.md R110) -/

/-- The checksum decides between the two answers, and each is the spec's word for it. -/
theorem respond_validate (m : Mode) (marker q compl high low : Byte) (payload : List Byte) (s : State) :
    (if crc16Arc payload ≠ high ++ low then respond .host .crcMismatch (crcData (crc16Arc payload)) s
      else respond .host .ok (validData m marker q compl) s) =
      .next { s with hostOut := s.hostOut ++ [validWord m marker q compl high low payload] } := by
  by_cases hcrc : crc16Arc payload = high ++ low
  · rw [if_neg (not_not.2 hcrc), validWord, if_pos hcrc, respond_eq, responseWord_validData, markerOk, markerByte_eq]
    rfl
  · rw [if_pos hcrc, validWord, if_neg hcrc, respond_eq, responseWord_crcMismatch]
    rfl

theorem exec_bcValidate_handedOff {s : State} {m : Mode} {marker q compl high low : Byte} {payload : List Byte}
    (h0 : s.sysFault = 0) (hcoll : s.raColl = false) (hwoff : s.raWoff.toNat = blockLen m)
    (hlen : payload.length = payloadLen m)
    (hblock : Memory.readBytes s.rxbuf 0 (blockLen m) = some ([marker, q, compl] ++ payload ++ [high, low])) :
    exec (.bcValidate m) s =
      .next { s with hostOut := s.hostOut ++ [validWord m marker q compl high low payload] } := by
  obtain ⟨hmarker, hseq, hcompl, hpayload, hhigh, hlow⟩ := reads_of_readBytes_block (M := spaceOf s .rxbuf) hlen hblock
  rw [exec, execBcValidate, guarded_unlatched h0, if_neg (by simp [hcoll, hwoff]), withByte_some hmarker,
    withByte_some hseq, withByte_some hcompl, withBytes_some hpayload, withByte_some hhigh, withByte_some hlow,
    respond_validate]

theorem execBcValidate_not_handedOff {s : State} {m : Mode} (h0 : s.sysFault = 0)
    (hpre : s.raColl = true ∨ s.raWoff.toNat ≠ blockLen m) :
    execBcValidate m s = raiseFault .host .notHandedOff s := by
  rw [execBcValidate, guarded_unlatched h0, if_pos hpre]

/-- Settles O47: the handed-off block by its checksum, the precondition that fails, then both words and the row. -/
theorem bcValidateDecidesByTheChecksum : Obligations.BcValidateDecidesByTheChecksum :=
  ⟨fun _ _ _ _ _ _ _ _ h0 hcoll hwoff hlen hblock => exec_bcValidate_handedOff h0 hcoll hwoff hlen hblock,
    fun _ _ h0 hpre => (execBcValidate_not_handedOff h0 hpre).trans (raiseFault_host h0),
    commandRule (by decide) rfl nofun, commandRule (by decide) rfl nofun, illegalForms .bcValidate⟩

/-! ## `BC.SEQCHK` and `BC.SEQINIT` (42_codec.md R111, R112) -/

/-- The expected number as the spec computes it. -/
theorem eq_expectedSeq {s : State} {e : Byte} (he : e.toNat = (s.bcLastseq.toNat + 1) % 256) : e = expectedSeq s :=
  BitVec.eq_of_toNat_eq (he.trans (BitVec.toNat_add s.bcLastseq 1).symm)

/-- A host response to `BC.SEQCHK` carries the spec's word and changes nothing else. -/
theorem respond_seqData (c : Code) (e q : Byte) (s : State) :
    respond .host c (seqData e q) s = .next { s with hostOut := s.hostOut ++ [seqWord (codeBits c) e q] } := by
  rw [respond_eq, responseWord_seqData]
  rfl

theorem execBcSeqchk_expected {s : State} (h0 : s.sysFault = 0) :
    execBcSeqchk (expectedSeq s) s = respond .host .seqOk (seqData (expectedSeq s) (expectedSeq s))
      { s with bcLastseq := expectedSeq s, bcBf := false } := by
  rw [execBcSeqchk, guarded_unlatched h0]
  exact if_pos rfl

theorem execBcSeqchk_lenient {s : State} {q : Byte} (h0 : s.sysFault = 0) (hq : q ≠ expectedSeq s)
    (hpolicy : s.bcStrict = false) :
    execBcSeqchk q s =
      respond .host .seqGap (seqData (expectedSeq s) q) { s with bcLastseq := q, bcBf := false } := by
  rw [execBcSeqchk, guarded_unlatched h0]
  exact (if_neg hq).trans (if_pos hpolicy)

theorem execBcSeqchk_strict {s : State} {q : Byte} (h0 : s.sysFault = 0) (hq : q ≠ expectedSeq s)
    (hpolicy : s.bcStrict = true) :
    execBcSeqchk q s = respond .host .seqReject (seqData (expectedSeq s) q) s := by
  rw [execBcSeqchk, guarded_unlatched h0]
  exact (if_neg hq).trans (if_neg (by simp [hpolicy]))

theorem decodeCommand_bcSeqchk (q : Byte) :
    decodeCommand ⟨0x31000000 ||| q.zeroExtend 32, []⟩ = .ok (.bcSeqchk q) := by
  have hword : 0x31000000 ||| q.zeroExtend 32 = assemble (opCode .bcSeqchk) 0 0 q := by revert q; decide
  rw [hword, decodeCommand_eq_ok_iff]
  exact ⟨.bcSeqchk, by simp, by simp, by simp [hasStrayOperand, byteMask], rfl, by simp [instrOf]⟩

/-- Settles O49: the expected number, another one under either policy, then the word of each number and the row. -/
theorem bcSeqchkFollowsThePolicy : Obligations.BcSeqchkFollowsThePolicy := by
  refine ⟨fun s e h0 he => ?expected, fun s e q h0 he hq hpolicy => ?lenient, fun s e q h0 he hq hpolicy => ?strict,
    fun q => commandRule (decodeCommand_bcSeqchk q) rfl nofun, illegalForms .bcSeqchk⟩ <;>
  obtain rfl := eq_expectedSeq he
  case expected => exact (execBcSeqchk_expected h0).trans (respond_seqData ..)
  case lenient => exact (execBcSeqchk_lenient h0 hq hpolicy).trans (respond_seqData ..)
  case strict => exact (execBcSeqchk_strict h0 hq hpolicy).trans (respond_seqData ..)

theorem exec_bcSeqinit_unlatched {s : State} (h0 : s.sysFault = 0) :
    exec .bcSeqinit s = .next
      { s with bcBf := true, bcLastseq := 0xFF, hostOut := s.hostOut ++ [0x00000000] } := by
  rw [exec, execBcSeqinit, guarded_unlatched h0]
  rfl

/-- Settles O51: its effect, then the rule of its one word and the row of its opcode. -/
theorem bcSeqinitRestoresBeforeFirst : Obligations.BcSeqinitRestoresBeforeFirst :=
  ⟨fun _ h0 => exec_bcSeqinit_unlatched h0, commandRule (by decide) rfl nofun, illegalForms .bcSeqinit⟩

/-! ## `BC.BUILD` and `BC.TXRD` (42_codec.md R113, R114) -/

theorem exec_bcBuild_fits {s : State} {m : Mode} {q : Byte} {src : List Byte} (h0 : s.sysFault = 0)
    (hsrc : src.length ≤ payloadLen m) :
    exec (.bcBuild m q src) s = .next
      { s with
        txbuf := cellsAt 0 (block m q src)
        bcTxlen := BitVec.ofNat 11 (blockLen m)
        hostOut := s.hostOut ++ [buildWord m src] } := by
  have hfit : (block m q src).length ≤ capacityOf s .txbuf := length_block hsrc ▸ blockLen_le m
  rw [exec, execBcBuild, guarded_unlatched h0, if_neg (by omega), builtBlock_eq_block, withFill_fits hfit,
    filled_txbuf, length_block hsrc, respond_eq, responseWord_buildData]
  rfl

theorem execBcBuild_oversize {s : State} {m : Mode} {q : Byte} {src : List Byte} (h0 : s.sysFault = 0)
    (hsrc : payloadLen m < src.length) : execBcBuild m q src s = raiseFault .host .buildOversize s := by
  rw [execBcBuild, guarded_unlatched h0, if_pos hsrc]

/-- A row's `match` with a mode, a count and a byte put into bits 23, 18:8 and 7:0. -/
theorem rowMatch_or_operands (o : Op) (m : Mode) (n : Offset) (b : Byte) :
    rowMatch o ||| (if m = .long then 0x00800000#32 else 0#32) ||| (n.zeroExtend 32 <<< 8) ||| b.zeroExtend 32 =
      assemble (opCode o) (modeBit m) n b := by
  have hmode : rowMatch o ||| (if m = .long then 0x00800000#32 else 0#32) =
      fiveFields (opCode o) (modeBit m) 0 0 0 := by
    cases o <;> cases m <;> decide
  refine BitVec.eq_of_getLsbD_eq fun i hi => ?_
  simp only [hmode, assemble_eq, BitVec.getLsbD_or, getLsbD_fiveFields, BitVec.getLsbD_shiftLeft,
    BitVec.truncate_eq_setWidth, BitVec.getLsbD_setWidth]
  by_cases h8 : i < 8
  · simp [h8, hi]
  · by_cases h19 : i < 19
    · simp [h8, h19, hi, show i - 8 < 32 by omega, BitVec.getLsbD_of_ge b i (by omega)]
    · simp [h8, h19, BitVec.getLsbD_of_ge n (i - 8) (by omega), BitVec.getLsbD_of_ge b i (by omega)]

/-- A count below 2048 is the same number in a word and in its field. -/
theorem ofNat_32_eq_zeroExtend {n : Nat} (hn : n < 2048) : BitVec.ofNat 32 n = (BitVec.ofNat 11 n).zeroExtend 32 :=
  (BitVec.setWidth_ofNat_of_le_of_lt (by decide) hn).symm

theorem decodeCommand_bcBuild (m : Mode) (q : Byte) {src : List Byte} (hsrc : src.length < 2048) :
    decodeCommand ⟨0x33000000#32 ||| (if m = .long then 0x00800000#32 else 0#32) |||
      (BitVec.ofNat 32 src.length <<< 8) ||| q.zeroExtend 32, src⟩ = .ok (.bcBuild m q src) := by
  rw [ofNat_32_eq_zeroExtend hsrc, show 0x33000000#32 = rowMatch .bcBuild from rfl, rowMatch_or_operands,
    decodeCommand_eq_ok_iff]
  exact ⟨.bcBuild, by simp, by simp, by simp [hasStrayOperand, usesMode, usesCount, byteMask],
    by simp [payloadCount, Nat.mod_eq_of_lt hsrc], by simp [instrOf]⟩

/-- Settles O52: the block that fits, the payload that does not, the four lengths, the word of each operand and the
row. -/
theorem bcBuildWritesTheWholeBlock : Obligations.BcBuildWritesTheWholeBlock :=
  ⟨fun _ _ _ _ h0 hsrc => ⟨_, exec_bcBuild_fits h0 hsrc, fun a => by simp [read_cellsAt], rfl⟩,
    fun _ _ _ _ h0 hsrc => (execBcBuild_oversize h0 hsrc).trans (raiseFault_host h0), rfl, rfl, rfl, rfl,
    fun m q _ hsrc => commandRule (decodeCommand_bcBuild m q hsrc) rfl nofun, illegalForms .bcBuild⟩

theorem execBcTxrd_unlatched {a : Offset} {s : State} (h0 : s.sysFault = 0) :
    execBcTxrd a s = readCommand .txbuf s.bcTxlen a s := guarded_unlatched h0

/-- Settles O53: a read below and a read beyond `BC_TXLEN`, then the word of each offset and the row. -/
theorem bcTxrdReadsOneByteOfTheBuiltBlock : Obligations.BcTxrdReadsOneByteOfTheBuiltBlock :=
  ⟨fun _ _ _ h0 ha hb => (execBcTxrd_unlatched h0).trans (readCommand_written ha hb),
    fun _ _ h0 ha => (execBcTxrd_unlatched h0).trans (readCommand_unwritten h0 ha),
    fun a => commandRule (decodeCommand_offset (o := .bcTxrd) rfl nofun a) rfl nofun, illegalForms .bcTxrd⟩

end Sys2Proof.Machine
end

section
/-! PROOFS. From one block to another (42_codec.md R115): a built block reads back whole, its fragments raise no fault
and are collected, polling hands it off, and validating it finds what was built. -/

namespace Sys2Proof.Machine

open Sys2Proof.Spec

/-! ## A trace of fragments -/

theorem execAll_append {is : List Instr} {s u : State} (h : execAll is s = .next u) (js : List Instr) :
    execAll (is ++ js) s = execAll js u := by
  induction is generalizing s with
  | nil => exact Host.Outcome.next.inj h ▸ rfl
  | cons i is ih =>
    obtain ⟨v, hv, hrest⟩ := execAll_cons_next h
    rw [List.cons_append, execAll_cons hv, ih hrest]

/-- The one fault a fragment can raise is `CAPACITY_OVERFLOW`. -/
theorem exec_raFrag_sysFault {f : List Byte} {s t : State} (h : exec (.raFrag f) s = .next t) :
    t.sysFault = s.sysFault ∨ t.sysFault = 1 := by
  rcases execRaFrag_next h with ⟨-, rfl⟩ | ⟨-, -, -, _, rfl, rfl⟩ | ⟨-, -, -, -, rfl⟩ | ⟨-, -, -, -, _, rfl, rfl⟩ |
    ⟨-, -, -, -, _, rfl, rfl⟩
  · exact .inl (answer_sysFault ..)
  · exact .inl (answer_sysFault ..)
  · exact .inr (answer_sysFault ..)
  · exact .inl (answer_sysFault ..)
  · exact .inl (answer_sysFault ..)

theorem execAll_raFrag_sysFault {fs : List (List Byte)} {s t : State} (h : execAll (fs.map .raFrag) s = .next t) :
    t.sysFault = s.sysFault ∨ t.sysFault = 1 := by
  induction fs generalizing s with
  | nil => exact .inl (Host.Outcome.next.inj h ▸ rfl)
  | cons f fs ih =>
    obtain ⟨u, hu, hrest⟩ := execAll_cons_next h
    rcases ih hrest with ht | ht
    · exact ht ▸ exec_raFrag_sysFault hu
    · exact .inr ht

/-- The trace of 41_reassembler.md R97 with nothing interleaved: no fragment overflows, so no fault is latched at all,
and the bytes are collected. -/
theorem execAll_raArm_raFrag {s : State} {fs : List (List Byte)} (hs : s.Inv) (h0 : s.sysFault = 0)
    (hfs : ∀ f ∈ fs, f ≠ [0x04] ∧ f.length ≤ s.cfg.fragMax) (hfit : fs.flatten.length ≤ 1029) :
    ∃ t, execAll (.raArm :: fs.map .raFrag) s = .next t ∧ t.sysFault = 0 ∧ t.raWoff.toNat = fs.flatten.length ∧
      Memory.readBytes t.rxbuf 0 fs.flatten.length = some fs.flatten := by
  have hfrag : (fs.map Instr.raFrag).filterMap fragmentOf = fs := by
    rw [List.filterMap_map]
    exact List.filterMap_some
  obtain ⟨t, ht, hoverflow, hcollected⟩ := reassemblyDoesNotDependOnTheSplit s (fs.map .raFrag) fs hs
    (List.forall_mem_map.2 fun f hf => decide_eq_true (hfs f hf).2) hfrag
    (List.forall_mem_map.2 fun _ _ => ⟨nofun, nofun⟩) (fun f hf => (hfs f hf).1) hfit
  have hfault : t.sysFault = 0 := by
    have hfrags := ht
    rw [execAll_cons (exec_raArm_unlatched h0)] at hfrags
    rcases execAll_raFrag_sysFault hfrags with hsame | hone
    · exact hsame.trans h0
    · exact absurd hone (hoverflow h0)
  obtain ⟨hwoff, -, hbytes⟩ := hcollected hfault
  exact ⟨t, ht, hfault, hwoff, hbytes⟩

/-! ## The block that is built is valid -/

/-- What is built reads back whole. -/
theorem readBytes_cellsAt (bs : List Byte) : Memory.readBytes (cellsAt 0 bs) 0 bs.length = some bs :=
  fill_eq_cellsAt [] bs ▸ readBytes_fill [] bs

/-- The trailer of a built block is the CRC of its padded payload, so its answer is `OK` with both diagnostic bits 1. -/
theorem validWord_block (m : Mode) (q : Byte) (payload : List Byte) :
    validWord m (if m = .short then 0x01 else 0x02) q (0xFF - q) ((crc16Arc payload >>> 8).truncate 8)
      ((crc16Arc payload).truncate 8) payload = 0#14 ++ 1#1 ++ 1#1 ++ (0xFF - q) ++ q := by
  rw [validWord, ← crcHigh_eq_truncate, ← crcLow_eq_truncate, if_pos (crcHigh_append_crcLow _).symm,
    decide_eq_true rfl, decide_eq_true rfl]
  rfl

/-- Settles O54: R97 for the fragments of the block, then R92 at exactly its length, then R110 with the CRC it
carries. -/
theorem builtBlockReassemblesAndValidates : Obligations.BuiltBlockReassemblesAndValidates := by
  intro m q src sender receiver hsender hsrc hs h0
  have hlen : (block m q src).length = blockLen m := length_block hsrc
  refine ⟨_, block m q src, exec_bcBuild_fits hsender hsrc, hlen ▸ readBytes_cellsAt _, fun fs hflat hfs => ?_⟩
  obtain ⟨t, ht, hfault, hwoff, hbytes⟩ :=
    execAll_raArm_raFrag hs h0 hfs (by rw [hflat, hlen]; exact blockLen_le m)
  rw [hflat, hlen] at hwoff hbytes
  have hpoll := raPollHandsOffAtExactlyTheBlockLength.1 t m hfault hwoff
  have hvalidate := exec_bcValidate_handedOff (s := { t with
    raColl := false, hostOut := t.hostOut ++ [statWord 0x2 { t with raColl := false }] })
    hfault rfl hwoff (length_padded hsrc) hbytes
  rw [validWord_block] at hvalidate
  obtain ⟨-, -, -, hpayload, -, -⟩ := reads_of_readBytes_block (length_padded hsrc) hbytes
  exact ⟨_, _, (execAll_append ht _).trans (execAll_cons hpoll []), List.getLast?_concat, hvalidate, rfl, hpayload⟩

end Sys2Proof.Machine
end

section
/-! PROOFS. The system commands (43_system.md R130, R131): the answer of `SYS.STAT` in every state, and the one register
`SYS.CFG` writes. -/

namespace Sys2Proof.Machine

open Sys2Proof.Spec

/-- `SYS.STAT` does not begin with the latched-fault check, so no premise on `SYS_FAULT` (43_system.md R130). -/
theorem exec_sysStat (s : State) : exec .sysStat s = .next { s with hostOut := s.hostOut ++ [sysWord s] } := by
  rw [exec, execSysStat, respond_eq, responseWord_sysData]
  rfl

/-- The corner case of 43_system.md R130: only `BC_BF` and `BC_LASTSEQ` are not 0 after reset. -/
theorem sysWord_resetOf (cfg : Config) : sysWord (State.resetOf cfg) = 0x00003FE0 := by
  rw [sysWord, resetOf_bcTxlen, resetOf_bcLastseq, resetOf_bcBf, resetOf_bcStrict, resetOf_sysFault]
  decide

theorem exec_sysStat_resetOf (cfg : Config) :
    exec .sysStat (State.resetOf cfg) = .next { State.resetOf cfg with hostOut := [0x00003FE0] } := by
  rw [exec_sysStat, sysWord_resetOf, resetOf_hostOut, List.nil_append]

theorem exec_sysCfg_unlatched {s : State} (strict : Bool) (h0 : s.sysFault = 0) :
    exec (.sysCfg strict) s = .next { s with bcStrict := strict, hostOut := s.hostOut ++ [0x00000000] } := by
  rw [exec, execSysCfg, guarded_unlatched h0]
  rfl

/-- The word of either operand value (43_system.md R131: "word `0x02000000 | strict`"). -/
theorem decodeCommand_sysCfg (strict : Bool) :
    decodeCommand ⟨if strict then 0x02000001 else 0x02000000, []⟩ = .ok (.sysCfg strict) := by
  cases strict <;> decide

/-- Settles O25: the answer in every state, its one word, the answer after reset, and the row of its opcode. -/
theorem sysStatReportsAndWritesNothing : Obligations.SysStatReportsAndWritesNothing := by
  have hword : decodeCommand ⟨0x01000000, []⟩ = .ok .sysStat := by decide
  exact ⟨exec_sysStat, fun _ => hword, exec_sysStat_resetOf, illegalForms .sysStat⟩

/-- Settles O26: its effect, then the rule of the word of each operand value and the row of its opcode. -/
theorem sysCfgWritesOnlyStrict : Obligations.SysCfgWritesOnlyStrict :=
  ⟨fun _ strict h0 => exec_sysCfg_unlatched strict h0, commandRule (decodeCommand_sysCfg false) rfl nofun,
    commandRule (decodeCommand_sysCfg true) rfl nofun, illegalForms .sysCfg⟩

end Sys2Proof.Machine
end

section
/-! PROOFS. While a fault is latched (60_exceptions.md R143, R144): every operation but `SYS.STAT` and every illegal word
is answered with the latched code, so no step but a reset touches the block's own state. -/

namespace Sys2Proof.Machine

open Sys2Proof.Spec

/-! ## What is refused, and with which word -/

theorem answerFault_host (s : State) :
    answerFault .host s = .next { s with hostOut := s.hostOut ++ [faultWord s.sysFault] } := by
  rw [answerFault_eq, responseWord_fault]
  rfl

theorem answerFault_fragment (s : State) :
    answerFault .fragment s = .next { s with fragOut := s.fragOut ++ [faultWord s.sysFault] } := by
  rw [answerFault_eq, responseWord_fault]
  rfl

/-- The latched-fault check comes before the legality of the word (60_exceptions.md R146). -/
theorem serveCommand_noRow_latched {s : State} (hfault : s.sysFault ≠ 0) {w : Word} (p : List Byte)
    (hrow : ∀ r ∈ rows, w &&& r.2 ≠ r.1) : serveCommand ⟨w, p⟩ s = answerFault .host s := by
  obtain ⟨e, hc, he⟩ := (decodeCommand_illegal_iff_no_row ⟨w, p⟩).2 hrow
  rw [serveCommand_illegal hc he, illegalCommand, guarded_latched hfault]

/-! ## What `SYS.STAT` answers -/

/-- The latch is the lowest field of the `SYS.STAT` word (30_encoding.md R58). -/
theorem sysWord_and_latch (s : State) : sysWord s &&& 0xF = s.sysFault.zeroExtend 32 := by
  have hmask : ∀ k < 32, (0xF : Word).getLsbD k = decide (k < 4) := by decide
  refine BitVec.eq_of_getLsbD_eq fun k hk => ?_
  rw [BitVec.getLsbD_and, hmask k hk, BitVec.zeroExtend_eq_setWidth, BitVec.getLsbD_setWidth]
  by_cases h4 : k < 4
  · simp only [sysWord, BitVec.getLsbD_append, h4]
    simp [hk]
  · simp [h4, BitVec.getLsbD_of_ge s.sysFault k (by omega)]

/-- The code of the `SYS.STAT` word is `OK`: its four highest bits lie in a field that is 0. -/
theorem sysWord_code (s : State) : sysWord s >>> 28 = 0 := by
  refine BitVec.eq_of_getLsbD_eq fun k hk => ?_
  simp only [sysWord, BitVec.getLsbD_ushiftRight, BitVec.getLsbD_append]
  simp [show ¬ 28 + k < 4 by omega, show ¬ 28 + k - 4 < 1 by omega, show ¬ 28 + k - 4 - 1 < 1 by omega,
    show ¬ 28 + k - 4 - 1 - 1 < 8 by omega, show ¬ 28 + k - 4 - 1 - 1 - 8 < 11 by omega]

/-- Settles O13: the check that begins every host operation, every fragment and every illegal word; and the two fields
of the `SYS.STAT` word. -/
theorem latchedFaultRefusesEverythingElse : Obligations.LatchedFaultRefusesEverythingElse := by
  refine fun s hfault => ⟨fun i hi hport => ?host, fun f => ?fragment, fun w p hrow => ?illegal,
    _, exec_sysStat s, sysWord_and_latch s, sysWord_code s⟩
  case host => rw [exec_latched hfault hi, hport, answerFault_host]
  case fragment => exact (exec_latched (i := .raFrag f) hfault nofun).trans (answerFault_fragment s)
  case illegal => rw [serveCommand_noRow_latched hfault p hrow, answerFault_host]

/-! ## The block's own state -/

/-- `t` has the block's own state of `s`: only what is pending and what was answered may differ. -/
def SameBlock (s t : State) : Prop :=
  ∃ cs fs ts ho fo, t = { s with hostIn := cs, fragIn := fs, turns := ts, hostOut := ho, fragOut := fo }

namespace SameBlock

@[refl] theorem refl (s : State) : SameBlock s s := ⟨_, _, _, _, _, rfl⟩

@[trans] theorem trans {s t u : State} (hst : SameBlock s t) (htu : SameBlock t u) : SameBlock s u := by
  obtain ⟨_, _, _, _, _, rfl⟩ := hst
  obtain ⟨cs, fs, ts, ho, fo, rfl⟩ := htu
  exact ⟨cs, fs, ts, ho, fo, rfl⟩

theorem answer (p : Port) (w : Word) (s : State) : SameBlock s (answer p w s) := by
  cases p <;> exact ⟨_, _, _, _, _, rfl⟩

theorem pending (s : State) (ts : List Agent) (cs : List HostCommand) (fs : List (List Byte)) :
    SameBlock s { s with turns := ts, hostIn := cs, fragIn := fs } := ⟨_, _, _, _, _, rfl⟩

theorem eq_with {s t : State} (h : SameBlock s t) : t = { s with
    hostIn := t.hostIn, fragIn := t.fragIn, turns := t.turns, hostOut := t.hostOut, fragOut := t.fragOut } := by
  obtain ⟨_, _, _, _, _, rfl⟩ := h
  rfl

end SameBlock

/-! ## Steps while a fault is latched -/

/-- A latched operation only answers, `SYS.STAT` among them. -/
theorem exec_latched_next {i : Instr} {s t : State} (hfault : s.sysFault ≠ 0) (h : exec i s = .next t) :
    ∃ p w, t = answer p w s := by
  by_cases hi : i = .sysStat
  · subst hi
    exact ⟨_, _, execSysStat_next h⟩
  · rw [exec_latched hfault hi] at h
    exact ⟨_, _, respond_next h⟩

theorem serveCommand_latched_next {c : HostCommand} {s t : State} (hfault : s.sysFault ≠ 0)
    (h : serveCommand c s = .next t) : ∃ p w, t = answer p w s := by
  rcases serveCommand_next h with ⟨i, -, hi⟩ | ⟨e, -, -, he⟩
  · exact exec_latched_next hfault hi
  · rw [illegalCommand, guarded_latched hfault] at he
    exact ⟨_, _, respond_next he⟩

/-- The block of `s` under a latched fault, with no reset to come. -/
structure HeldLatched (s t : State) : Prop where
  block : SameBlock s t
  latched : t.sysFault ≠ 0
  noReset : .environment ∉ t.turns

/-- An answer leaves the block, the latch and the turns. -/
theorem HeldLatched.answered {s u t : State} (hu : HeldLatched s u) (h : ∃ p w, t = answer p w u) :
    HeldLatched s t := by
  obtain ⟨p, w, rfl⟩ := h
  exact ⟨hu.block.trans (.answer p w u), answer_sysFault p w u ▸ hu.latched, answer_turns p w u ▸ hu.noReset⟩

/-- Taking a turn and a packet leaves the block and the latch, and brings no reset nearer. -/
theorem HeldLatched.taken {s u : State} (hu : HeldLatched s u) {a : Agent} {ts : List Agent}
    (hts : u.turns = a :: ts) (cs : List HostCommand) (fs : List (List Byte)) :
    HeldLatched s { u with turns := ts, hostIn := cs, fragIn := fs } :=
  ⟨hu.block.trans (.pending u ts cs fs), hu.latched, fun hmem => hu.noReset (hts ▸ List.mem_cons_of_mem a hmem)⟩

theorem step_heldLatched {s u t : State} (hu : HeldLatched s u) (h : step u = .next t) : HeldLatched s t := by
  rcases step_next h with ⟨-, rfl⟩ | ⟨ts, hts, -, rfl⟩ | ⟨ts, c, cs, hts, -, hc⟩ | ⟨ts, hts, -, rfl⟩ |
    ⟨ts, f, fs, hts, -, hf⟩ | ⟨ts, hts, -⟩
  · exact hu
  · exact hu.taken hts u.hostIn u.fragIn
  · exact (hu.taken hts cs u.fragIn).answered (serveCommand_latched_next hu.latched hc)
  · exact hu.taken hts u.hostIn u.fragIn
  · exact (hu.taken hts u.hostIn fs).answered (exec_latched_next hu.latched (serveFragment_next hf).2)
  · exact absurd (hts ▸ List.mem_cons_self) hu.noReset

theorem step_environment {s : State} {ts : List Agent} (hts : s.turns = .environment :: ts) :
    step s = .next (resetBlock { s with turns := ts }) := by
  rw [step, takeTurn, hts]

/-- Settles O14: every step keeps the block, the latch and the absence of resets; and a reset is `resetBlock`. -/
theorem latchedFaultStaysUntilReset : Obligations.LatchedFaultStaysUntilReset :=
  ⟨fun n s t hfault hreset h =>
    (steps_invariant (fun _ _ hu hstep => step_heldLatched hu hstep) n s t ⟨.refl s, hfault, hreset⟩ h).block.eq_with,
    fun _ _ _ hts => ⟨_, step_environment hts, rfl, rfl⟩⟩

end Sys2Proof.Machine
end

section
/-! PROOFS. Raising a fault (60_exceptions.md R140, R142, R146): the table as a relation of state, operation and fault,
that an operation that meets a row raises its fault and writes nothing else, and that no other operation latches one. -/

namespace Sys2Proof.Machine

open Sys2Proof.Spec

/-! ## The table (60_exceptions.md R140) -/

/-- The table of 60_exceptions.md R140: the operation and the condition on which each fault is met, with none latched
and in the order of R146. `ILLEGAL_COMMAND` has no row here: it belongs to words that are no operation. -/
inductive Meets (s : State) : Instr → FaultCode → Prop
  | capacityOverflow {f : List Byte} (hf : f ≠ [0x04]) (hcoll : s.raColl = true)
      (hover : s.raWoff.toNat + f.length > 1029) : Meets s (.raFrag f) .capacityOverflow
  | blockOverrun {m : Mode} (hover : s.raWoff.toNat > blockLen m) : Meets s (.raPoll m) .blockOverrun
  | notHandedOffToValidate {m : Mode} (hpre : s.raColl = true ∨ s.raWoff.toNat ≠ blockLen m) :
      Meets s (.bcValidate m) .notHandedOff
  | notHandedOffToRead {a : Offset} (hcoll : s.raColl = true) : Meets s (.raRxrd a) .notHandedOff
  | buildOversize {m : Mode} {q : Byte} {src : List Byte} (hsrc : src.length > payloadLen m) :
      Meets s (.bcBuild m q src) .buildOversize
  | rxUnwritten {a : Offset} (hcoll : s.raColl = false) (ha : s.raWoff.toNat ≤ a.toNat) :
      Meets s (.raRxrd a) .readUnwritten
  | msgUnwritten {a : Offset} (ha : s.raMsglen.toNat ≤ a.toNat) : Meets s (.raMsgrd a) .readUnwritten
  | txUnwritten {a : Offset} (ha : s.bcTxlen.toNat ≤ a.toNat) : Meets s (.bcTxrd a) .readUnwritten

theorem meets_capacityOverflow_iff {i : Instr} {s : State} :
    Meets s i .capacityOverflow ↔
      ∃ f, i = .raFrag f ∧ f ≠ [0x04] ∧ s.raColl = true ∧ s.raWoff.toNat + f.length > 1029 :=
  ⟨fun | .capacityOverflow hf hcoll hover => ⟨_, rfl, hf, hcoll, hover⟩,
    fun ⟨_, hi, hf, hcoll, hover⟩ => hi ▸ .capacityOverflow hf hcoll hover⟩

theorem meets_blockOverrun_iff {i : Instr} {s : State} :
    Meets s i .blockOverrun ↔ ∃ m, i = .raPoll m ∧ s.raWoff.toNat > blockLen m :=
  ⟨fun | .blockOverrun hover => ⟨_, rfl, hover⟩, fun ⟨_, hi, hover⟩ => hi ▸ .blockOverrun hover⟩

theorem not_meets_illegalCommand (i : Instr) (s : State) : ¬ Meets s i .illegalCommand := nofun

theorem meets_notHandedOff_iff {i : Instr} {s : State} :
    Meets s i .notHandedOff ↔
      (∃ m, i = .bcValidate m ∧ (s.raColl = true ∨ s.raWoff.toNat ≠ blockLen m)) ∨
        ∃ a, i = .raRxrd a ∧ s.raColl = true :=
  ⟨fun
    | .notHandedOffToValidate hpre => .inl ⟨_, rfl, hpre⟩
    | .notHandedOffToRead hcoll => .inr ⟨_, rfl, hcoll⟩,
    fun
    | .inl ⟨_, hi, hpre⟩ => hi ▸ .notHandedOffToValidate hpre
    | .inr ⟨_, hi, hcoll⟩ => hi ▸ .notHandedOffToRead hcoll⟩

theorem meets_buildOversize_iff {i : Instr} {s : State} :
    Meets s i .buildOversize ↔ ∃ m q src, i = .bcBuild m q src ∧ src.length > payloadLen m :=
  ⟨fun | .buildOversize hsrc => ⟨_, _, _, rfl, hsrc⟩, fun ⟨_, _, _, hi, hsrc⟩ => hi ▸ .buildOversize hsrc⟩

theorem meets_readUnwritten_iff {i : Instr} {s : State} :
    Meets s i .readUnwritten ↔
      (∃ a, i = .raRxrd a ∧ s.raColl = false ∧ s.raWoff.toNat ≤ a.toNat) ∨
        (∃ a, i = .raMsgrd a ∧ s.raMsglen.toNat ≤ a.toNat) ∨ ∃ a, i = .bcTxrd a ∧ s.bcTxlen.toNat ≤ a.toNat :=
  ⟨fun
    | .rxUnwritten hcoll ha => .inl ⟨_, rfl, hcoll, ha⟩
    | .msgUnwritten ha => .inr (.inl ⟨_, rfl, ha⟩)
    | .txUnwritten ha => .inr (.inr ⟨_, rfl, ha⟩),
    fun
    | .inl ⟨_, hi, hcoll, ha⟩ => hi ▸ .rxUnwritten hcoll ha
    | .inr (.inl ⟨_, hi, ha⟩) => hi ▸ .msgUnwritten ha
    | .inr (.inr ⟨_, hi, ha⟩) => hi ▸ .txUnwritten ha⟩

/-! ## An operation that meets a row raises its fault -/

theorem readCommand_beyond {sp : Space} {n a : Offset} {s : State} (ha : n.toNat ≤ a.toNat) :
    readCommand sp n a s = raiseFault .host .readUnwritten s := if_pos ha

/-- The row decides alone: no later check of the operation is made. -/
theorem exec_of_meets {i : Instr} {c : FaultCode} {s : State} (h0 : s.sysFault = 0) (h : Meets s i c) :
    exec i s = raiseFault (portOf i) c s := by
  cases h with
  | capacityOverflow hf hcoll hover => exact execRaFrag_overflow h0 hf hcoll hover
  | blockOverrun hover => exact execRaPoll_greater h0 hover
  | notHandedOffToValidate hpre => exact execBcValidate_not_handedOff h0 hpre
  | notHandedOffToRead hcoll => exact execRaRxrd_collecting h0 hcoll
  | buildOversize hsrc => exact execBcBuild_oversize h0 hsrc
  | rxUnwritten hcoll ha => exact (execRaRxrd_handedOff h0 hcoll).trans (readCommand_beyond ha)
  | msgUnwritten ha => exact (execRaMsgrd_unlatched h0).trans (readCommand_beyond ha)
  | txUnwritten ha => exact (execBcTxrd_unlatched h0).trans (readCommand_beyond ha)

/-! ## No other operation latches a fault -/

/-- The latch of `t` is that of `s`. -/
abbrev KeepsLatch (s t : State) : Prop := t.sysFault = s.sysFault

namespace KeepsLatch

/-- A response leaves the latch; that the answered state `s'` has the latch of `s` holds by computation. -/
theorem answered {p : Port} {c : Code} {data : BitVec 28} {s s' t : State} (h : AnsweredTo p c data s' t)
    (hs : KeepsLatch s s' := by rfl) : KeepsLatch s t := h ▸ (answer_sysFault p _ s').trans hs

theorem refused {p : Port} {s t : State} (h : RefusedTo p s t) : KeepsLatch s t := answered h.2

end KeepsLatch

open KeepsLatch

/-- Every branch of an operation that is no row of the table ends in a response that leaves the latch. -/
theorem meets_or_keepsLatch {i : Instr} {s t : State} (h : exec i s = .next t) :
    (∃ c, Meets s i c) ∨ KeepsLatch s t := by
  cases i with
  | sysStat => exact .inr (answered (execSysStat_next h))
  | sysCfg b => exact .inr ((execSysCfg_next h).elim refused fun ha => answered ha.2)
  | crcInit => exact .inr ((execCrcInit_next h).elim refused fun ha => answered ha.2)
  | crcUpd b => exact .inr ((execCrcUpd_next h).elim refused fun ha => answered ha.2)
  | crcGet => exact .inr ((execCrcGet_next h).elim refused fun ha => answered ha.2)
  | raArm => exact .inr ((execRaArm_next h).elim refused fun ha => answered ha.2)
  | raStat => exact .inr ((execRaStat_next h).elim refused fun ha => answered ha.2)
  | raMsgclr => exact .inr ((execRaMsgclr_next h).elim refused fun ha => answered ha.2)
  | bcSeqinit => exact .inr ((execBcSeqinit_next h).elim refused fun ha => answered ha.2)
  | raPoll m =>
    rcases execRaPoll_next h with hr | ⟨hover, -⟩ | ⟨-, -, ha⟩ | ⟨-, -, ha⟩
    · exact .inr (refused hr)
    · exact .inl ⟨_, .blockOverrun hover⟩
    · exact .inr (answered ha)
    · exact .inr (answered ha)
  | raMsgrd a =>
    rcases execRaMsgrd_next h with hr | ⟨hbeyond, -⟩ | ⟨-, -, _, -, ha⟩
    · exact .inr (refused hr)
    · exact .inl ⟨_, .msgUnwritten hbeyond⟩
    · exact .inr (answered ha)
  | raRxrd a =>
    rcases execRaRxrd_next h with hr | ⟨hcoll, -⟩ | ⟨hcoll, hbeyond, -⟩ | ⟨-, -, -, _, -, ha⟩
    · exact .inr (refused hr)
    · exact .inl ⟨_, .notHandedOffToRead hcoll⟩
    · exact .inl ⟨_, .rxUnwritten hcoll hbeyond⟩
    · exact .inr (answered ha)
  | bcValidate m =>
    rcases execBcValidate_next h with
      hr | ⟨hpre, -⟩ | ⟨-, -, -, _, _, _, _, _, _, -, -, -, -, -, -, ⟨-, ha⟩ | ⟨-, ha⟩⟩
    · exact .inr (refused hr)
    · exact .inl ⟨_, .notHandedOffToValidate hpre⟩
    · exact .inr (answered ha)
    · exact .inr (answered ha)
  | bcSeqchk r =>
    rcases execBcSeqchk_next h with hr | ⟨-, -, ha⟩ | ⟨-, -, -, ha⟩ | ⟨-, -, -, ha⟩
    · exact .inr (refused hr)
    · exact .inr (answered ha)
    · exact .inr (answered ha)
    · exact .inr (answered ha)
  | bcBuild m q src =>
    rcases execBcBuild_next h with hr | ⟨hsrc, -⟩ | ⟨-, -, ha⟩
    · exact .inr (refused hr)
    · exact .inl ⟨_, .buildOversize hsrc⟩
    · exact .inr (answered ha)
  | bcTxrd a =>
    rcases execBcTxrd_next h with hr | ⟨hbeyond, -⟩ | ⟨-, -, _, -, ha⟩
    · exact .inr (refused hr)
    · exact .inl ⟨_, .txUnwritten hbeyond⟩
    · exact .inr (answered ha)
  | raFrag f =>
    rcases execRaFrag_next h with hr | ⟨-, -, -, _, rfl, ha⟩ | ⟨hf, hcoll, hover, -⟩ | ⟨-, -, -, -, _, rfl, ha⟩ |
      ⟨-, -, -, -, _, rfl, ha⟩
    · exact .inr (refused hr)
    · exact .inr (answered ha)
    · exact .inl ⟨_, .capacityOverflow hf hcoll hover⟩
    · exact .inr (answered ha)
    · exact .inr (answered ha)

/-! ## The latch after an operation -/

theorem faultBits_injective : Function.Injective faultBits := fun c d h => by
  revert h
  cases c <;> cases d <;> decide

/-- With none latched before, an operation raised the fault whose row it meets, or left the latch empty. -/
theorem exec_raised_or_unfaulted {i : Instr} {s t : State} (h0 : s.sysFault = 0) (h : exec i s = .next t) :
    (∃ c, Meets s i c ∧ RaisedTo (portOf i) c s t) ∨ t.sysFault = 0 := by
  rcases meets_or_keepsLatch h with ⟨c, hc⟩ | hkeep
  · exact .inl ⟨c, hc, raiseFault_next h0 ((exec_of_meets h0 hc).symm.trans h)⟩
  · exact .inr (hkeep.trans h0)

theorem RaisedTo.sysFault_eq {p : Port} {c : FaultCode} {s t : State} (h : RaisedTo p c s t) :
    t.sysFault = faultBits c := h.2 ▸ answer_sysFault ..

theorem exec_sysFault_eq_faultBits_iff {i : Instr} {s t : State} (h0 : s.sysFault = 0) (h : exec i s = .next t)
    (c : FaultCode) : t.sysFault = faultBits c ↔ Meets s i c := by
  constructor
  · intro ht
    rcases exec_raised_or_unfaulted h0 h with ⟨d, hd, hraised⟩ | hzero
    · exact faultBits_injective ((RaisedTo.sysFault_eq hraised).symm.trans ht) ▸ hd
    · exact absurd (ht.symm.trans hzero) (faultBits_ne_zero c)
  · exact fun hc => RaisedTo.sysFault_eq (raiseFault_next h0 ((exec_of_meets h0 hc).symm.trans h))

theorem exec_sysFault_le {i : Instr} {s t : State} (h0 : s.sysFault = 0) (h : exec i s = .next t) :
    t.sysFault.toNat ≤ 6 := by
  rcases exec_raised_or_unfaulted h0 h with ⟨c, -, hraised⟩ | hzero
  · exact RaisedTo.sysFault_eq hraised ▸ toNat_faultBits_le c
  · simp [hzero]

/-- A latched fault was raised as 60_exceptions.md R142 says, on the operation's own port. -/
theorem exec_raised_of_latches {i : Instr} {s t : State} (h0 : s.sysFault = 0) (ht : t.sysFault ≠ 0)
    (h : exec i s = .next t) : ∃ c, RaisedTo (portOf i) c s t := by
  obtain ⟨c, -, hraised⟩ := (exec_raised_or_unfaulted h0 h).resolve_right ht
  exact ⟨c, hraised⟩

theorem RaisedTo.eq_host {c : FaultCode} {s t : State} (h : RaisedTo .host c s t) :
    t = { s with sysFault := t.sysFault, hostOut := s.hostOut ++ [faultWord t.sysFault] } := by
  obtain ⟨-, rfl⟩ := h
  rw [responseWord_fault]
  rfl

theorem RaisedTo.eq_fragment {c : FaultCode} {s t : State} (h : RaisedTo .fragment c s t) :
    t = { s with sysFault := t.sysFault, fragOut := s.fragOut ++ [faultWord t.sysFault] } := by
  obtain ⟨-, rfl⟩ := h
  rw [responseWord_fault]
  rfl

/-! ## The host port -/

theorem portOf_of_decodeCommand {c : HostCommand} {i : Instr} (h : decodeCommand c = .ok i) : portOf i = .host := by
  obtain ⟨o, -, -, -, -, rfl⟩ := (decodeCommand_eq_ok_iff c i).1 h
  cases o <;> rfl

theorem serveCommand_decoded {c : HostCommand} {i : Instr} (h : decodeCommand c = .ok i) (s : State) :
    serveCommand c s = exec i s := by
  simp [serveCommand, decode, h]

/-- A fault that a command latches is raised on the host port, by its operation or by its illegal word. -/
theorem serveCommand_raised_of_latches {c : HostCommand} {s t : State} (h0 : s.sysFault = 0) (ht : t.sysFault ≠ 0)
    (h : serveCommand c s = .next t) : ∃ code, RaisedTo .host code s t := by
  rcases serveCommand_next h with ⟨i, hi, hrun⟩ | ⟨e, -, -, hillegal⟩
  · exact portOf_of_decodeCommand hi ▸ exec_raised_of_latches h0 ht hrun
  · exact ⟨_, (illegalCommand_next hillegal).resolve_left fun hr => hr.1 h0⟩

/-- A command latches `ILLEGAL_COMMAND` exactly when its word matches no row. -/
theorem serveCommand_sysFault_eq_three_iff {c : HostCommand} {s t : State} (h0 : s.sysFault = 0)
    (h : serveCommand c s = .next t) : t.sysFault = 3 ↔ ∀ r ∈ rows, c.word &&& r.2 ≠ r.1 := by
  rw [← decodeCommand_illegal_iff_no_row c]
  rcases serveCommand_next h with ⟨i, hi, hrun⟩ | ⟨e, he, hillegal, hrun⟩
  · have hlatch := exec_sysFault_eq_faultBits_iff h0 hrun .illegalCommand
    exact iff_of_false (fun h3 => not_meets_illegalCommand i s (hlatch.1 h3)) (by simp [hi])
  · rw [illegalCommand_unlatched h0] at hrun
    obtain rfl := Host.Outcome.next.inj hrun
    exact iff_of_true rfl ⟨e, he, hillegal⟩

/-! ## The statements -/

/-- Settles O12: a latched fault was raised on the port it was served on, and a code latched before stays. -/
theorem raisedFaultWritesOnlyTheLatch : Obligations.RaisedFaultWritesOnlyTheLatch := by
  refine ⟨fun c s t h h0 ht => ?host, fun f s t h h0 ht => ?fragment,
    fun i s t h hfault => exec_sysFault_of_latched hfault h⟩
  case host =>
    obtain ⟨code, hraised⟩ := serveCommand_raised_of_latches h0 ht h
    exact RaisedTo.eq_host hraised
  case fragment =>
    obtain ⟨code, hraised⟩ := exec_raised_of_latches h0 ht (serveFragment_next h).2
    exact RaisedTo.eq_fragment hraised

/-- Settles O15: the code an operation latches is that of the row it meets, and `ILLEGAL_COMMAND` is for the words
outside every row. -/
theorem faultsAreRaisedExactlyAsTabled : Obligations.FaultsAreRaisedExactlyAsTabled := by
  refine ⟨fun i s t h0 h => ?_, fun c s t h0 h => serveCommand_sysFault_eq_three_iff h0 h⟩
  have hlatch (c : FaultCode) : t.sysFault = faultBits c ↔ Meets s i c := exec_sysFault_eq_faultBits_iff h0 h c
  exact ⟨(hlatch .capacityOverflow).trans meets_capacityOverflow_iff,
    (hlatch .blockOverrun).trans meets_blockOverrun_iff,
    fun h3 => not_meets_illegalCommand i s ((hlatch .illegalCommand).1 h3),
    (hlatch .notHandedOff).trans meets_notHandedOff_iff,
    (hlatch .buildOversize).trans meets_buildOversize_iff,
    (hlatch .readUnwritten).trans meets_readUnwritten_iff, exec_sysFault_le h0 h⟩

/-- Settles O16: each clause is the rule of the check made first, which asks nothing of the later ones. The sentinel
is recorded without a look at `RA_COLL` or `RA_WOFF` (90_conflicts.md C1). -/
theorem checksComeInTheFixedOrder : Obligations.ChecksComeInTheFixedOrder :=
  ⟨fun s => ⟨serveCommand_decoded (by decide) s, _, exec_sysStat s, rfl, _, rfl, sysWord_code s⟩,
    fun s _ p hfault hrow => (serveCommand_noRow_latched hfault p hrow).trans (answerFault_host s),
    fun s w p h0 hrow => wordMatchingNoRowIsIllegal.2 w p s h0 hrow,
    fun _ _ h0 hcoll _ => (exec_of_meets h0 (.notHandedOffToRead hcoll)).trans (raiseFault_host h0),
    fun _ _ h0 hpre => (exec_of_meets h0 (.notHandedOffToValidate hpre)).trans (raiseFault_host h0),
    fun _ h0 hcfg _ _ => ⟨_, execRaFrag_sentinel h0 hcfg.1, h0, rfl⟩,
    fun _ _ h0 hcoll hf hover =>
      (exec_of_meets h0 (.capacityOverflow hf hcoll hover)).trans (raiseFault_fragment h0)⟩

end Sys2Proof.Machine
end

section
/-! PROOFS. Reset (70_reset_and_hazards.md R170): what the environment's turn leaves, and that no turn of the host or of
the transport side clears a latched fault. -/

namespace Sys2Proof.Machine

/-! ## Only a reset clears a fault -/

theorem serveCommand_sysFault_of_latched {c : HostCommand} {s t : State} (hfault : s.sysFault ≠ 0)
    (h : serveCommand c s = .next t) : t.sysFault = s.sysFault := by
  obtain ⟨p, w, rfl⟩ := serveCommand_latched_next hfault h
  exact answer_sysFault p w s

theorem serveFragment_sysFault_of_latched {f : List Byte} {s t : State} (hfault : s.sysFault ≠ 0)
    (h : serveFragment f s = .next t) : t.sysFault = s.sysFault :=
  exec_sysFault_of_latched hfault (serveFragment_next h).2

/-- One step from a latched fault: the latch stays, whichever port is served and whatever is still to come, or the
step is the environment's turn. -/
theorem step_sysFault_of_latched {s t : State} (hfault : s.sysFault ≠ 0) (h : step s = .next t) :
    t.sysFault = s.sysFault ∨ s.turns.head? = some .environment := by
  rcases step_next h with ⟨-, rfl⟩ | ⟨ts, -, -, rfl⟩ | ⟨ts, c, cs, -, -, hc⟩ | ⟨ts, -, -, rfl⟩ |
    ⟨ts, f, fs, -, -, hf⟩ | ⟨ts, hts, -⟩
  · exact .inl rfl
  · exact .inl rfl
  · exact .inl (serveCommand_sysFault_of_latched (s := { s with turns := ts, hostIn := cs }) hfault hc)
  · exact .inl rfl
  · exact .inl (serveFragment_sysFault_of_latched (s := { s with turns := ts, fragIn := fs }) hfault hf)
  · exact .inr (hts ▸ List.head?_cons)

/-! ## The statement -/

/-- Settles O17: the environment's turn is `resetBlock`, whose every field a law of the state gives, and every other
step leaves a latched code. -/
theorem resetSetsEveryPieceOfState : Obligations.ResetSetsEveryPieceOfState := by
  refine ⟨fun s ts hts => ⟨_, step_environment hts, ?values⟩, fun s t h hfault hclear => ?onlyReset⟩
  case values => simp
  case onlyReset =>
    exact (step_sysFault_of_latched hfault h).resolve_left fun hkeep => hfault (hkeep.symm.trans hclear)

end Sys2Proof.Machine
end

section
/-! PROOFS. The round trip of the encoding (30_encoding.md R50 to R55, R59): a command decodes exactly when its word is
assembled from the fields its row uses, and encoding an operation assembles those fields. -/

namespace Sys2Proof

/-! ## The fields of a legal word -/

/-- The fields that a word of the row `o` may have: what the row marks 0 is 0 (30_encoding.md R53). -/
structure LegalFields (o : Op) (m : BitVec 1) (n : Offset) (b : Byte) : Prop where
  mode : usesMode o = true ∨ m = 0
  count : usesCount o = true ∨ n = 0
  byte : b &&& ~~~ byteMask o = 0

theorem hasStrayOperand_eq_false_iff (o : Op) (w : Word) :
    hasStrayOperand o w = false ↔ LegalFields o (modeField w) (countField w) (byteField w) := by
  simp only [hasStrayOperand, Bool.or_eq_false_iff, Bool.and_eq_false_iff, Bool.not_eq_false', bne_eq_false_iff_eq]
  exact ⟨fun ⟨⟨hm, hn⟩, hb⟩ => ⟨hm, hn, hb⟩, fun ⟨hm, hn, hb⟩ => ⟨⟨hm, hn⟩, hb⟩⟩

/-- Only `BC.BUILD` has a payload, of as many bytes as its count says (30_encoding.md R55). -/
theorem payloadCount_eq (o : Op) (w : Word) : payloadCount o w = if o = .bcBuild then (countField w).toNat else 0 := by
  cases o <;> rfl

/-- The commands that decode: a word assembled from legal fields, with the payload its count calls for. -/
theorem decodeCommand_eq_ok_iff_assemble (c : HostCommand) (i : Instr) :
    decodeCommand c = .ok i ↔
      ∃ o m n b, LegalFields o m n b ∧ c.payload.length = (if o = .bcBuild then n.toNat else 0) ∧
        c.word = assemble (opCode o) m n b ∧ instrOf o (modeOfBit m) n b c.payload = i := by
  rw [decodeCommand_eq_ok_iff]
  constructor
  · rintro ⟨o, ho, hz, hstray, hlen, hi⟩
    refine ⟨o, _, _, _, (hasStrayOperand_eq_false_iff o _).1 hstray, payloadCount_eq o _ ▸ hlen, ?_, hi⟩
    rw [opCode_of_opOfCode ho, assemble_fields hz]
  · rintro ⟨o, m, n, b, hlegal, hlen, hword, hi⟩
    rw [hword]
    exact ⟨o, by simp, by simp, (hasStrayOperand_eq_false_iff o _).2 (by simpa using hlegal),
      by simpa [payloadCount_eq] using hlen, by simpa using hi⟩

/-! ## Decoding what is encoded -/

theorem decode_assemble {o : Op} {m : BitVec 1} {n : Offset} {b : Byte} {p : List Byte} (hlegal : LegalFields o m n b)
    (hlen : p.length = if o = .bcBuild then n.toNat else 0) (cfg : Config) :
    decode cfg (.command ⟨assemble (opCode o) m n b, p⟩) = .ok (instrOf o (modeOfBit m) n b p) :=
  (decodeCommand_eq_ok_iff_assemble _ _).2 ⟨o, m, n, b, hlegal, hlen, rfl, rfl⟩

/-- The operations of the rows with no operand. -/
theorem decode_encode_plain {o : Op} (ho : o ≠ .bcBuild) (cfg : Config) :
    decode cfg (plainCommand o 0 0 0) = .ok (instrOf o .short 0 0 []) :=
  decode_assemble ⟨.inr rfl, .inr rfl, BitVec.zero_and⟩ (if_neg ho).symm cfg

/-- The operations of the rows with a mode only. -/
theorem decode_encode_mode {o : Op} (ho : o ≠ .bcBuild) (huses : usesMode o = true) (m : Mode) (cfg : Config) :
    decode cfg (plainCommand o (modeBit m) 0 0) = .ok (instrOf o m 0 0 []) := by
  have h := decode_assemble (m := modeBit m) (n := 0) (b := 0) (p := []) ⟨.inl huses, .inr rfl, BitVec.zero_and⟩
    (if_neg ho).symm cfg
  rwa [modeOfBit_modeBit] at h

/-- The operations of the rows with an offset only. -/
theorem decode_encode_offset {o : Op} (ho : o ≠ .bcBuild) (huses : usesCount o = true) (a : Offset) (cfg : Config) :
    decode cfg (plainCommand o 0 a 0) = .ok (instrOf o .short a 0 []) :=
  decode_assemble ⟨.inr rfl, .inl huses, BitVec.zero_and⟩ (if_neg ho).symm cfg

/-- The operations of the rows with a byte operand only, at every value the row's mask admits. -/
theorem decode_encode_byte {o : Op} (ho : o ≠ .bcBuild) {b : Byte} (hb : b &&& ~~~ byteMask o = 0) (cfg : Config) :
    decode cfg (plainCommand o 0 0 b) = .ok (instrOf o .short 0 b []) :=
  decode_assemble ⟨.inr rfl, .inr rfl, hb⟩ (if_neg ho).symm cfg

theorem and_not_all_ones (b : Byte) : b &&& ~~~ 0xFF#8 = 0 := by simp

/-- Settles O2: one rule for each shape of a row; only the payload of `BC.BUILD` and a fragment can be too long to be
encoded, and well-formedness excludes exactly that. -/
theorem decodeOfEncodeIsTheOperation : Obligations.DecodeOfEncodeIsTheOperation := by
  intro cfg i hwf
  cases i with
  | sysCfg strict => cases strict <;> exact decode_encode_byte (by decide) (by decide) cfg
  | crcUpd b => exact decode_encode_byte (o := .crcUpd) (by decide) (and_not_all_ones b) cfg
  | bcSeqchk q => exact decode_encode_byte (o := .bcSeqchk) (by decide) (and_not_all_ones q) cfg
  | raPoll m => exact decode_encode_mode (by decide) rfl m cfg
  | bcValidate m => exact decode_encode_mode (by decide) rfl m cfg
  | raMsgrd a => exact decode_encode_offset (by decide) rfl a cfg
  | raRxrd a => exact decode_encode_offset (by decide) rfl a cfg
  | bcTxrd a => exact decode_encode_offset (by decide) rfl a cfg
  | bcBuild m q src =>
    have hlen : (BitVec.ofNat 11 src.length).toNat = src.length :=
      Machine.toNat_ofNat_of_lt_2048 (of_decide_eq_true hwf)
    have h := decode_assemble (o := .bcBuild) (m := modeBit m) (b := q) ⟨.inl rfl, .inl rfl, and_not_all_ones q⟩
      hlen.symm cfg
    rwa [modeOfBit_modeBit] at h
  | raFrag f => exact (decodeFragment_eq_ok_iff cfg f _).2 ⟨of_decide_eq_true hwf, rfl⟩
  | _ => exact decode_encode_plain (by decide) cfg

/-! ## Encoding what is decoded -/

/-- The one operand bit of `SYS.CFG` is the whole of a legal byte field. -/
theorem byte_of_sysCfg {b : Byte} (hb : b &&& ~~~ byteMask .sysCfg = 0) : (if b.getLsbD 0 then 1 else 0) = b := by
  revert b; decide

/-- A row with no byte operand has the byte field 0. -/
theorem byte_eq_zero {b : Byte} (hb : b &&& ~~~ 0x00 = 0) : b = 0 := by
  revert b; decide

/-- An operation is encoded as the word of the fields it was decoded from. -/
theorem encode_instrOf {o : Op} {m : BitVec 1} {n : Offset} {b : Byte} {p : List Byte} (hlegal : LegalFields o m n b)
    (hlen : p.length = if o = .bcBuild then n.toNat else 0) :
    encode (instrOf o (modeOfBit m) n b p) = .command ⟨assemble (opCode o) m n b, p⟩ := by
  obtain ⟨hm, hn, hb⟩ := hlegal
  by_cases ho : o = .bcBuild
  · subst ho
    have hcount : BitVec.ofNat 11 p.length = n := by rw [hlen, if_pos rfl, BitVec.ofNat_toNat, BitVec.setWidth_eq]
    rw [instrOf, encode, modeBit_modeOfBit, hcount]
  · obtain rfl : p = [] := List.length_eq_zero_iff.1 (hlen.trans (if_neg ho))
    cases o with
    | bcBuild => exact absurd rfl ho
    | sysCfg =>
      obtain rfl := hm.resolve_left nofun
      obtain rfl := hn.resolve_left nofun
      rw [instrOf, encode, byte_of_sysCfg hb, plainCommand]
    | crcUpd | bcSeqchk =>
      obtain rfl := hm.resolve_left nofun
      obtain rfl := hn.resolve_left nofun
      rfl
    | raPoll | bcValidate =>
      obtain rfl := hn.resolve_left nofun
      obtain rfl := byte_eq_zero hb
      rw [instrOf, encode, modeBit_modeOfBit, plainCommand]
    | raMsgrd | raRxrd | bcTxrd =>
      obtain rfl := hm.resolve_left nofun
      obtain rfl := byte_eq_zero hb
      rfl
    | _ =>
      obtain rfl := hm.resolve_left nofun
      obtain rfl := hn.resolve_left nofun
      obtain rfl := byte_eq_zero hb
      rfl

/-- The count field has eleven bits, so a payload that was decoded is short enough to be encoded. -/
theorem wellFormed_instrOf {o : Op} {n : Offset} {p : List Byte} (hlen : p.length = if o = .bcBuild then n.toNat else 0)
    (m : Mode) (b : Byte) (cfg : Config) : WellFormed cfg (instrOf o m n b p) = true := by
  cases o with
  | bcBuild => exact decide_eq_true (hlen ▸ n.isLt)
  | _ => rfl

theorem encode_of_decodeCommand {c : HostCommand} {i : Instr} (h : decodeCommand c = .ok i) :
    encode i = .command c := by
  obtain ⟨o, m, n, b, hlegal, hlen, hword, rfl⟩ := (decodeCommand_eq_ok_iff_assemble c i).1 h
  rw [encode_instrOf hlegal hlen, ← hword]

theorem wellFormed_of_decodeCommand {c : HostCommand} {i : Instr} (h : decodeCommand c = .ok i) (cfg : Config) :
    WellFormed cfg i = true := by
  obtain ⟨o, m, n, b, -, hlen, -, rfl⟩ := (decodeCommand_eq_ok_iff_assemble c i).1 h
  exact wellFormed_instrOf hlen _ b cfg

/-- Settles O3: a command gives its fields back because no other bit of its word may be set, and a fragment is its
bytes. -/
theorem encodeOfDecodeIsThePacket : Obligations.EncodeOfDecodeIsThePacket := by
  intro cfg p i h
  cases p with
  | command c => exact ⟨encode_of_decodeCommand h, wellFormed_of_decodeCommand h cfg⟩
  | fragment f =>
    obtain ⟨hmax, rfl⟩ := (decodeFragment_eq_ok_iff cfg f i).1 h
    exact ⟨rfl, decide_eq_true hmax⟩

/-- Settles O1, by evaluating the decoder on the ten words. -/
theorem wordsOfEveryFamilyDecode : Obligations.WordsOfEveryFamilyDecode := by
  unfold Obligations.WordsOfEveryFamilyDecode
  decide

end Sys2Proof
end

section
/-! PROOFS. What an operation writes and answers: every operation that completes made one of the updates listed here, and
gave one response after it. The writers of each register (10_state.md R12 to R21) are read off that list. -/

namespace Sys2Proof.Machine

open Sys2Proof.Spec

/-! ## The responses of a port -/

@[simp] theorem answersOn_answer (p : Port) (w : Word) (s : State) :
    (answer p w s).answersOn p = s.answersOn p ++ [w] := by cases p <;> rfl

theorem answersOn_answer_of_ne {p q : Port} (h : q ≠ p) (w : Word) (s : State) :
    (answer p w s).answersOn q = s.answersOn q := by
  cases p <;> cases q
  · exact absurd rfl h
  · rfl
  · rfl
  · exact absurd rfl h

/-! ## The updates of the block -/

/-- The state an operation begun in `s` answers in, with the tests that lead there: every update of the block's state
that an operation can make. -/
inductive Writes (s : State) : Instr → State → Prop
  /-- A refusal, a report, a read, an incomplete poll, a rejected sequence number. -/
  | nothing (i : Instr) : Writes s i s
  | latched (i : Instr) (c : FaultCode) : Writes s i { s with sysFault := faultBits c }
  | configured (b : Bool) : Writes s (.sysCfg b) { s with bcStrict := b }
  | crcZeroed : Writes s .crcInit { s with crcAcc := 0 }
  | crcFed (b : Byte) : Writes s (.crcUpd b) { s with crcAcc := crcStep s.crcAcc b }
  | armed : Writes s .raArm { s with rxbuf := [], raWoff := 0, raColl := true }
  | handedOff {m : Mode} (hlen : s.raWoff.toNat = blockLen m) : Writes s (.raPoll m) { s with raColl := false }
  | msgCleared : Writes s .raMsgclr { s with msg := [], raMsglen := 0 }
  | seqAccepted (r : Byte) : Writes s (.bcSeqchk r) { s with bcLastseq := r, bcBf := false }
  | seqRestored : Writes s .bcSeqinit { s with bcBf := true, bcLastseq := 0xFF }
  | blockBuilt (m : Mode) (q : Byte) (src : List Byte) : Writes s (.bcBuild m q src)
      { s with txbuf := cellsAt 0 (builtBlock m q src), bcTxlen := BitVec.ofNat 11 (blockLen m) }
  | sentinelRecorded : Writes s (.raFrag [eotByte]) (recorded [eotByte] { s with raColl := false })
  | fragmentAppended {f : List Byte} (hf : f ≠ [eotByte]) (hcoll : s.raColl = true) :
      Writes s (.raFrag f) (appended f s)
  | messageRecorded {f : List Byte} (hcoll : s.raColl = false) : Writes s (.raFrag f) (recorded f s)

namespace Writes

variable {s s' : State} {i : Instr}

/-- No update is one of what the ports hold or of the configuration. -/
theorem frame (h : Writes s i s') :
    s'.cfg = s.cfg ∧ s'.hostIn = s.hostIn ∧ s'.fragIn = s.fragIn ∧ s'.turns = s.turns := by
  cases h <;> exact ⟨rfl, rfl, rfl, rfl⟩

theorem answersOn (h : Writes s i s') (p : Port) : s'.answersOn p = s.answersOn p := by cases h <;> rfl

/-! ### The writers of each register -/

theorem crcAcc_writer (h : Writes s i s') (hne : s'.crcAcc ≠ s.crcAcc) : i = .crcInit ∨ ∃ b, i = .crcUpd b := by
  cases h with
  | crcZeroed => exact .inl rfl
  | crcFed b => exact .inr ⟨b, rfl⟩
  | _ => exact absurd rfl hne

theorem rxbuf_writer (h : Writes s i s') (hne : s'.rxbuf ≠ s.rxbuf ∨ s'.raWoff ≠ s.raWoff) :
    i = .raArm ∨ ∃ f, i = .raFrag f ∧ f ≠ [0x04] ∧ s.raColl = true := by
  cases h with
  | armed => exact .inl rfl
  | fragmentAppended hf hcoll => exact .inr ⟨_, rfl, hf, hcoll⟩
  | _ => exact hne.elim (absurd rfl) (absurd rfl)

theorem raColl_setter (h : Writes s i s') (hclear : s.raColl = false) (hset : s'.raColl = true) : i = .raArm := by
  cases h with
  | armed => rfl
  | handedOff | sentinelRecorded => cases hset
  | _ => cases hclear.symm.trans hset

theorem raColl_clearer (h : Writes s i s') (hset : s.raColl = true) (hclear : s'.raColl = false) :
    i = .raFrag [0x04] ∨ ∃ m, i = .raPoll m ∧ s.raWoff.toNat = blockLen m := by
  cases h with
  | sentinelRecorded => exact .inl rfl
  | handedOff hlen => exact .inr ⟨_, rfl, hlen⟩
  | armed => cases hclear
  | _ => cases hset.symm.trans hclear

theorem msg_writer (h : Writes s i s') (hne : s'.msg ≠ s.msg ∨ s'.raMsglen ≠ s.raMsglen) :
    i = .raMsgclr ∨ i = .raFrag [0x04] ∨ ∃ f, i = .raFrag f ∧ s.raColl = false := by
  cases h with
  | msgCleared => exact .inl rfl
  | sentinelRecorded => exact .inr (.inl rfl)
  | messageRecorded hcoll => exact .inr (.inr ⟨_, rfl, hcoll⟩)
  | _ => exact hne.elim (absurd rfl) (absurd rfl)

theorem seq_writer (h : Writes s i s') (hne : s'.bcBf ≠ s.bcBf ∨ s'.bcLastseq ≠ s.bcLastseq) :
    i = .bcSeqinit ∨ ∃ q, i = .bcSeqchk q := by
  cases h with
  | seqRestored => exact .inl rfl
  | seqAccepted r => exact .inr ⟨r, rfl⟩
  | _ => exact hne.elim (absurd rfl) (absurd rfl)

theorem bcStrict_writer (h : Writes s i s') (hne : s'.bcStrict ≠ s.bcStrict) : ∃ b, i = .sysCfg b := by
  cases h with
  | configured b => exact ⟨b, rfl⟩
  | _ => exact absurd rfl hne

theorem txbuf_writer (h : Writes s i s') (hne : s'.txbuf ≠ s.txbuf ∨ s'.bcTxlen ≠ s.bcTxlen) :
    ∃ m q src, i = .bcBuild m q src := by
  cases h with
  | blockBuilt m q src => exact ⟨m, q, src, rfl⟩
  | _ => exact hne.elim (absurd rfl) (absurd rfl)

/-! ### The canonical form of each byte space (log entry 11) -/

theorem rxbuf_wf (h : Writes s i s') (hwf : s.rxbuf.wf) : s'.rxbuf.wf := by
  cases h with
  | armed => exact List.Pairwise.nil
  | fragmentAppended => exact wf_writeBytes hwf _ _
  | _ => exact hwf

theorem txbuf_wf (h : Writes s i s') (hwf : s.txbuf.wf) : s'.txbuf.wf := by
  cases h with
  | blockBuilt => exact wf_cellsAt _ _
  | _ => exact hwf

theorem msg_wf (h : Writes s i s') (hwf : s.msg.wf) : s'.msg.wf := by
  cases h with
  | msgCleared => exact List.Pairwise.nil
  | sentinelRecorded => exact wf_cellsAt _ _
  | messageRecorded => exact wf_cellsAt _ _
  | _ => exact hwf

end Writes

/-! ## The response of an operation -/

/-- `i` took `s` to `t`: it made one of its updates, then answered once on its own port with a code 30_encoding.md R57
gives it, and with nothing but the latched code if that is `FAULT`. -/
abbrev Ran (i : Instr) (s t : State) : Prop :=
  ∃ c data s', Writes s i s' ∧ codeBits c ∈ codesOf i ∧ (c = .fault → data = faultData s'.sysFault) ∧
    AnsweredTo (portOf i) c data s' t

namespace Ran

variable {i : Instr} {s s' t : State}

/-- That the code is no `FAULT`, and one of the operation's, holds by computation. -/
theorem answered {c : Code} {data : BitVec 28} (h : AnsweredTo (portOf i) c data s' t) (hw : Writes s i s')
    (hcode : codeBits c ∈ codesOf i := by simp [codeBits, codesOf]) (hc : c ≠ .fault := by nofun) : Ran i s t :=
  ⟨c, data, s', hw, hcode, fun hfault => absurd hfault hc, h⟩

theorem refused (h : RefusedTo (portOf i) s t) (hcode : 0xF ∈ codesOf i := by simp [codesOf]) : Ran i s t :=
  ⟨.fault, _, s, .nothing i, hcode, fun _ => rfl, h.2⟩

theorem raised {c : FaultCode} (h : RaisedTo (portOf i) c s t) (hcode : 0xF ∈ codesOf i := by simp [codesOf]) :
    Ran i s t :=
  ⟨.fault, _, _, .latched i c, hcode, fun _ => rfl, h.2⟩

end Ran

open Ran

/-- Every operation that completes made one of its updates and answered: one line for each outcome of each operation. -/
theorem exec_ran {i : Instr} {s t : State} (h : exec i s = .next t) : Ran i s t := by
  cases i with
  | sysStat => exact answered (execSysStat_next h) (.nothing _)
  | sysCfg b => exact (execSysCfg_next h).elim (fun hr => refused hr) fun ha => answered ha.2 (.configured b)
  | crcInit => exact (execCrcInit_next h).elim (fun hr => refused hr) fun ha => answered ha.2 .crcZeroed
  | crcUpd b => exact (execCrcUpd_next h).elim (fun hr => refused hr) fun ha => answered ha.2 (.crcFed b)
  | crcGet => exact (execCrcGet_next h).elim (fun hr => refused hr) fun ha => answered ha.2 (.nothing _)
  | raArm => exact (execRaArm_next h).elim (fun hr => refused hr) fun ha => answered ha.2 .armed
  | raStat => exact (execRaStat_next h).elim (fun hr => refused hr) fun ha => answered ha.2 (.nothing _)
  | raMsgclr => exact (execRaMsgclr_next h).elim (fun hr => refused hr) fun ha => answered ha.2 .msgCleared
  | bcSeqinit => exact (execBcSeqinit_next h).elim (fun hr => refused hr) fun ha => answered ha.2 .seqRestored
  | raPoll m =>
    rcases execRaPoll_next h with hr | ⟨-, hf⟩ | ⟨-, hlen, ha⟩ | ⟨-, -, ha⟩
    · exact refused hr
    · exact raised hf
    · exact answered ha (.handedOff hlen)
    · exact answered ha (.nothing _)
  | raMsgrd a =>
    rcases execRaMsgrd_next h with hr | ⟨-, hf⟩ | ⟨-, -, _, -, ha⟩
    · exact refused hr
    · exact raised hf
    · exact answered ha (.nothing _)
  | raRxrd a =>
    rcases execRaRxrd_next h with hr | ⟨-, hf⟩ | ⟨-, -, hf⟩ | ⟨-, -, -, _, -, ha⟩
    · exact refused hr
    · exact raised hf
    · exact raised hf
    · exact answered ha (.nothing _)
  | bcValidate m =>
    rcases execBcValidate_next h with
      hr | ⟨-, hf⟩ | ⟨-, -, -, _, _, _, _, _, _, -, -, -, -, -, -, ⟨-, ha⟩ | ⟨-, ha⟩⟩
    · exact refused hr
    · exact raised hf
    · exact answered ha (.nothing _)
    · exact answered ha (.nothing _)
  | bcSeqchk r =>
    rcases execBcSeqchk_next h with hr | ⟨-, -, ha⟩ | ⟨-, -, -, ha⟩ | ⟨-, -, -, ha⟩
    · exact refused hr
    · exact answered ha (.seqAccepted r)
    · exact answered ha (.seqAccepted r)
    · exact answered ha (.nothing _)
  | bcBuild m q src =>
    rcases execBcBuild_next h with hr | ⟨-, hf⟩ | ⟨-, -, ha⟩
    · exact refused hr
    · exact raised hf
    · exact answered ha (.blockBuilt m q src)
  | bcTxrd a =>
    rcases execBcTxrd_next h with hr | ⟨-, hf⟩ | ⟨-, -, _, -, ha⟩
    · exact refused hr
    · exact raised hf
    · exact answered ha (.nothing _)
  | raFrag f =>
    rcases execRaFrag_next h with hr | ⟨-, rfl, -, _, rfl, ha⟩ | ⟨-, -, -, hf⟩ | ⟨-, hf, hcoll, -, _, rfl, ha⟩ |
      ⟨-, -, hcoll, -, _, rfl, ha⟩
    · exact refused hr
    · exact answered ha .sentinelRecorded
    · exact raised hf
    · exact answered ha (.fragmentAppended hf hcoll)
    · exact answered ha (.messageRecorded hcoll)

/-! ## The statements -/

theorem codeBits_eq_fault {c : Code} (h : codeBits c = 0xF) : c = .fault := by
  cases c with
  | fault => rfl
  | _ => exact absurd h (by decide)

/-- Settles O9: the update touches no response, and the one response after it has the code in its bits 31:28. -/
theorem oneResponseWithALegalCode : Obligations.OneResponseWithALegalCode := by
  intro i s t h
  obtain ⟨c, data, s', hw, hcode, hfault, rfl⟩ := exec_ran h
  refine ⟨⟨responseWord c data, ?_, ?_, fun hbits => ?_⟩, fun p hp => ?_⟩
  · rw [answersOn_answer, hw.answersOn]
  · rwa [code_of_responseWord]
  · rw [code_of_responseWord] at hbits
    obtain rfl := codeBits_eq_fault hbits
    rw [hfault rfl, answer_sysFault, responseWord_fault, faultWord]
  · rw [answersOn_answer_of_ne hp, hw.answersOn]

/-- Settles O21: the updates that write a byte space write it in canonical form. -/
theorem everyOperationKeepsMemoryCanonical : Obligations.EveryOperationKeepsMemoryCanonical := by
  intro i s t h
  obtain ⟨c, data, s', hw, -, -, rfl⟩ := exec_ran h
  rw [answer_rxbuf, answer_txbuf, answer_msg]
  exact ⟨hw.rxbuf_wf, hw.txbuf_wf, hw.msg_wf⟩

theorem one_le_toNat_faultBits (c : FaultCode) : 1 ≤ (faultBits c).toNat := by cases c <;> decide

/-- The latch is written by fault entry only: while it is 0, with one of the six codes, which is also the response
(60_exceptions.md R142). -/
theorem exec_sysFault_writer {i : Instr} {s t : State} (h : exec i s = .next t) (hne : t.sysFault ≠ s.sysFault) :
    s.sysFault = 0 ∧ 1 ≤ t.sysFault.toNat ∧ t.sysFault.toNat ≤ 6 ∧
      t.answersOn (portOf i) = s.answersOn (portOf i) ++ [faultWord t.sysFault] := by
  have h0 : s.sysFault = 0 := by
    by_contra hfault
    exact hne (exec_sysFault_of_latched hfault h)
  obtain ⟨c, -, rfl⟩ := exec_raised_of_latches h0 (fun ht => hne (ht.trans h0.symm)) h
  rw [answer_sysFault, answersOn_answer, responseWord_fault]
  exact ⟨h0, one_le_toNat_faultBits c, toNat_faultBits_le c, by cases i <;> rfl⟩

/-- Settles O24: the writers of each register are those of the update, which the response after it leaves as it is. -/
theorem eachRegisterHasOnlyItsOwnWriters : Obligations.EachRegisterHasOnlyItsOwnWriters := by
  intro i s t h
  have hlatch := exec_sysFault_writer h
  obtain ⟨c, data, s', hw, -, -, rfl⟩ := exec_ran h
  refine ⟨?_, ?_, ?_, ?_, ?_, ?_, ?_, ?_, ?_, hlatch, ?_⟩ <;>
    simp only [answer_crcAcc, answer_rxbuf, answer_raWoff, answer_raColl, answer_msg, answer_raMsglen, answer_bcBf,
      answer_bcLastseq, answer_bcStrict, answer_txbuf, answer_bcTxlen, answer_cfg, answer_hostIn, answer_fragIn,
      answer_turns]
  · exact hw.crcAcc_writer
  · exact fun hne => hw.rxbuf_writer (.inl hne)
  · exact fun hne => hw.rxbuf_writer (.inr hne)
  · exact hw.raColl_setter
  · exact hw.raColl_clearer
  · exact hw.msg_writer
  · exact hw.seq_writer
  · exact hw.bcStrict_writer
  · exact hw.txbuf_writer
  · exact hw.frame

/-! ## The block after the hand-off (20_memory.md R42, R44) -/

/-- With `RA_COLL` 0 the writers of `RXBUF`, `RA_WOFF` and `RA_COLL` come down to `RA.ARM`. -/
theorem exec_handedOff_frozen {i : Instr} {s t : State} (hcoll : s.raColl = false) (hi : i ≠ .raArm)
    (h : exec i s = .next t) : t.rxbuf = s.rxbuf ∧ t.raWoff = s.raWoff ∧ t.raColl = false := by
  obtain ⟨-, hrxbuf, hwoff, hset, -⟩ := eachRegisterHasOnlyItsOwnWriters i s t h
  have hwriter : ¬ (i = .raArm ∨ ∃ f, i = .raFrag f ∧ f ≠ [0x04] ∧ s.raColl = true) := by simp [hi, hcoll]
  exact ⟨not_not.1 fun hne => hwriter (hrxbuf hne), not_not.1 fun hne => hwriter (hwoff hne),
    Bool.eq_false_iff.2 fun hone => hi (hset hcoll hone)⟩

/-- Settles O45, by induction on the trace. -/
theorem handedOffBlockIsFrozenUntilArmed : Obligations.HandedOffBlockIsFrozenUntilArmed := by
  intro is
  induction is with
  | nil =>
    intro s t hcoll _ h
    obtain rfl := Host.Outcome.next.inj h
    exact ⟨rfl, rfl, hcoll⟩
  | cons i is ih =>
    intro s t hcoll harm h
    obtain ⟨hi, his⟩ := not_or.1 (mt List.mem_cons.2 harm)
    obtain ⟨u, hu, hrest⟩ := execAll_cons_next h
    obtain ⟨hrxbuf, hwoff, hcoll'⟩ := exec_handedOff_frozen hcoll (Ne.symm hi) hu
    obtain ⟨hrxbuf', hwoff', hlast⟩ := ih u t hcoll' his hrest
    exact ⟨hrxbuf'.trans hrxbuf, hwoff'.trans hwoff, hlast⟩

end Sys2Proof.Machine
end

section
/-! PROOFS. The ports and the turns (00_scope.md R4, 20_memory.md R40, R41, 30_encoding.md R55): what a step is by whose
turn it is, what serving a packet leaves alone, and that the machine never stops. -/

namespace Sys2Proof.Machine

/-! ## A step, by whose turn it is -/

section

variable {s : State} {ts : List Agent}

theorem step_no_turn (hts : s.turns = []) : step s = .next s := by rw [step, takeTurn, hts]

theorem step_host_idle (hts : s.turns = .host :: ts) (hin : s.hostIn = []) : step s = .next { s with turns := ts } := by
  simp only [step, takeTurn, hts, hostTurn, hin]

theorem step_host {c : HostCommand} {cs : List HostCommand} (hts : s.turns = .host :: ts) (hin : s.hostIn = c :: cs) :
    step s = serveCommand c { s with turns := ts, hostIn := cs } := by
  simp only [step, takeTurn, hts, hostTurn, hin]

theorem step_transport_idle (hts : s.turns = .transport :: ts) (hin : s.fragIn = []) :
    step s = .next { s with turns := ts } := by
  simp only [step, takeTurn, hts, transportTurn, hin]

theorem step_transport {f : List Byte} {fs : List (List Byte)} (hts : s.turns = .transport :: ts)
    (hin : s.fragIn = f :: fs) : step s = serveFragment f { s with turns := ts, fragIn := fs } := by
  simp only [step, takeTurn, hts, transportTurn, hin]

end

theorem serveFragment_decoded {f : List Byte} {i : Instr} {s : State} (h : decodeFragment s.cfg f = .ok i) :
    serveFragment f s = exec i s := by
  simp only [serveFragment, decode, h]

/-- Settles O6: the rule of each turn, and of the packet that decodes. -/
theorem stepRunsTheDecodedOperation : Obligations.StepRunsTheDecodedOperation :=
  ⟨fun _ _ _ _ _ hts hin hi => (step_host hts hin).trans (serveCommand_decoded hi _),
    fun _ _ _ _ _ hts hin hi => (step_transport hts hin).trans (serveFragment_decoded hi),
    fun _ _ hts hin => step_host_idle hts hin, fun _ _ hts hin => step_transport_idle hts hin,
    fun _ hts => step_no_turn hts⟩

/-- Settles O7: presenting a packet and then taking it leaves the state it was presented to. -/
theorem presentedTableWordRunsNext : Obligations.PresentedTableWordRunsNext := by
  intro s nbits w i hi
  rw [State.withFetchWord]
  cases hp : packetOfTableWord nbits w with
  | command c =>
    rw [hp] at hi
    exact stepRunsTheDecodedOperation.1 (presentFirst (.command c) s) c s.hostIn s.turns i rfl rfl hi
  | fragment f =>
    rw [hp] at hi
    exact stepRunsTheDecodedOperation.2.1 (presentFirst (.fragment f) s) f s.fragIn s.turns i rfl rfl hi

/-! ## What serving a packet leaves alone -/

/-- `t` is `s` after one response on port `p`: nothing pending, no turn and no response of the other port is touched,
and the configuration stays. -/
structure Served (p : Port) (s t : State) : Prop where
  response : ∃ w, t.answersOn p = s.answersOn p ++ [w]
  otherPort : ∀ q, q ≠ p → t.answersOn q = s.answersOn q
  cfg_eq : t.cfg = s.cfg
  hostIn_eq : t.hostIn = s.hostIn
  fragIn_eq : t.fragIn = s.fragIn
  turns_eq : t.turns = s.turns

theorem served_answer (p : Port) (w : Word) (s : State) : Served p s (answer p w s) where
  response := ⟨w, answersOn_answer p w s⟩
  otherPort := fun _ hq => answersOn_answer_of_ne hq w s
  cfg_eq := answer_cfg p w s
  hostIn_eq := answer_hostIn p w s
  fragIn_eq := answer_fragIn p w s
  turns_eq := answer_turns p w s

theorem exec_served {i : Instr} {s t : State} (h : exec i s = .next t) : Served (portOf i) s t := by
  obtain ⟨⟨w, hw, -⟩, hother⟩ := oneResponseWithALegalCode i s t h
  obtain ⟨-, -, -, -, -, -, -, -, -, -, hcfg, hhost, hfrag, hturns⟩ := eachRegisterHasOnlyItsOwnWriters i s t h
  exact ⟨⟨w, hw⟩, hother, hcfg, hhost, hfrag, hturns⟩

/-- A fault on the host port changes the latch besides the response. -/
theorem illegalCommand_served {s t : State} (h : illegalCommand s = .next t) : Served .host s t := by
  rcases illegalCommand_next h with ⟨-, rfl⟩ | ⟨-, rfl⟩
  · exact served_answer ..
  · obtain ⟨hresponse, hother, hcfg, hhost, hfrag, hturns⟩ := served_answer .host
      (responseWord .fault (faultData (faultBits .illegalCommand))) { s with sysFault := faultBits .illegalCommand }
    exact ⟨hresponse, hother, hcfg, hhost, hfrag, hturns⟩

theorem serveCommand_served {c : HostCommand} {s t : State} (h : serveCommand c s = .next t) : Served .host s t := by
  rcases serveCommand_next h with ⟨i, hi, hrun⟩ | ⟨e, -, -, hillegal⟩
  · exact portOf_of_decodeCommand hi ▸ exec_served hrun
  · exact illegalCommand_served hillegal

theorem serveFragment_served {f : List Byte} {s t : State} (h : serveFragment f s = .next t) : Served .fragment s t :=
  exec_served (serveFragment_next h).2

/-- Settles O8: one case for each kind of turn, with a packet pending or without. -/
theorem stepServesOnePortInOrder : Obligations.StepServesOnePortInOrder := by
  intro s t h
  rcases step_next h with ⟨hts, rfl⟩ | ⟨ts, hts, hin, rfl⟩ | ⟨ts, c, cs, hts, hin, hc⟩ | ⟨ts, hts, hin, rfl⟩ |
    ⟨ts, f, fs, hts, hin, hf⟩ | ⟨ts, hts, rfl⟩
  · simp [hts]
  · simp [hts, hin]
  · obtain ⟨hresponse, hother, -, hhost, hfrag, hturns⟩ := serveCommand_served hc
    rw [hts, hin]
    exact ⟨hturns, hhost, hfrag, hother .fragment nofun, hresponse⟩
  · simp [hts, hin]
  · obtain ⟨hresponse, hother, -, hhost, hfrag, hturns⟩ := serveFragment_served hf
    rw [hts, hin]
    exact ⟨hturns, hfrag, hhost, hother .host nofun, hresponse⟩
  · rw [hts]
    exact ⟨rfl, rfl, rfl, rfl, rfl⟩

/-! ## A command and its payload (30_encoding.md R55) -/

theorem ushiftRight_24_eq (w : Word) : w >>> 24 = (opField w).zeroExtend 32 := by
  refine BitVec.eq_of_getLsbD_eq fun k hk => ?_
  by_cases h8 : k < 8
  · simp [opField, h8, hk]
  · simp [opField, h8, BitVec.getLsbD_of_ge w (24 + k) (by omega)]

theorem toNat_countField (w : Word) : ((w >>> 8) &&& 0x7FF).toNat = (countField w).toNat := by
  have hmask : (w >>> 8).toNat &&& 2 ^ 11 - 1 = (w >>> 8).toNat % 2 ^ 11 := Nat.and_two_pow_sub_one_eq_mod ..
  simpa [countField] using hmask

/-- The word of a command says whether it is `BC.BUILD`. -/
theorem ushiftRight_24_eq_iff {w : Word} {o : Op} (ho : opOfCode (opField w) = some o) :
    w >>> 24 = 0x33 ↔ o = .bcBuild := by
  have hcode : opField w = opCode o := opOfCode_eq_some_iff.1 ho
  constructor
  · exact fun h => opCode_injective (hcode.symm.trans (opField_of_ushiftRight (code := opCode .bcBuild) h))
  · rintro rfl
    rw [ushiftRight_24_eq, hcode]
    rfl

theorem length_payload_of_decodeCommand {w : Word} {p : List Byte} {i : Instr} (h : decodeCommand ⟨w, p⟩ = .ok i) :
    p.length = if w >>> 24 = 0x33 then ((w >>> 8) &&& 0x7FF).toNat else 0 := by
  obtain ⟨o, ho, -, -, hlen, -⟩ := (decodeCommand_eq_ok_iff ⟨w, p⟩ i).1 h
  rw [payloadCount_eq] at hlen
  simpa only [ushiftRight_24_eq_iff ho, toNat_countField] using hlen

/-- Settles O5: the length the decoder asks for, and that serving a command leaves the rest of the queue. -/
theorem payloadBelongsToItsCommand : Obligations.PayloadBelongsToItsCommand := by
  refine ⟨fun _ w p i h => length_payload_of_decodeCommand h, fun s t c cs ts hts hin h => ?_⟩
  rw [step_host hts hin] at h
  exact (serveCommand_served h).hostIn_eq

/-! ## The machine never stops -/

/-- Settles O18, with the suggested `FRAG_MAX` as one that is legal. -/
theorem resetStateIsSound : Obligations.ResetStateIsSound :=
  ⟨resetOf_inv (by decide), rfl, fun _ hcfg => ⟨resetOf_inv hcfg, rfl⟩⟩

/-- Settles O19: no turn, no packet and no operation leads out of the sound states. -/
theorem everyStepKeepsTheStateSound : Obligations.EveryStepKeepsTheStateSound :=
  fun _ _ hs h => (step_keepsSound h).inv hs

/-- Settles O22: every byte an operation reads is held in a sound state, and every byte it writes fits. -/
theorem wellFormedOperationsComplete : Obligations.WellFormedOperationsComplete :=
  fun _ _ hs hi => exec_completes hs hi

/-- A command the host port can carry: it decodes, or its word is illegal (30_encoding.md R54, R55). -/
def Presentable (c : HostCommand) : Prop :=
  (∃ i, decodeCommand c = .ok i) ∨ ∃ e, decodeCommand c = .error e ∧ e.isIllegalWord = true

theorem inputsPresentable_iff (s : State) :
    s.inputsPresentable = true ↔ (∀ c ∈ s.hostIn, Presentable c) ∧ ∀ f ∈ s.fragIn, f.length ≤ s.cfg.fragMax := by
  rw [State.inputsPresentable, Bool.and_eq_true, List.all_eq_true, List.all_eq_true]
  refine and_congr (forall₂_congr fun c _ => ?_) (forall₂_congr fun f _ => decide_eq_true_iff)
  cases hc : decodeCommand c <;> simp [Presentable, hc]

theorem serveCommand_completes {c : HostCommand} {s : State} (hs : s.Inv) (hc : Presentable c) :
    Completes (serveCommand c s) := by
  rcases hc with ⟨i, hi⟩ | ⟨e, he, hillegal⟩
  · rw [serveCommand_decoded hi]
    exact exec_completes hs (wellFormed_of_decodeCommand hi s.cfg)
  · rw [serveCommand_illegal he hillegal]
    exact guarded_completes ⟨_, rfl⟩

theorem serveFragment_completes {f : List Byte} {s : State} (hs : s.Inv) (hf : f.length ≤ s.cfg.fragMax) :
    Completes (serveFragment f s) := by
  rw [serveFragment_decoded ((decodeFragment_eq_ok_iff s.cfg f _).2 ⟨hf, rfl⟩)]
  exact exec_completes hs (decide_eq_true hf)

/-- Progress: whoever's turn it is, a packet its port can carry is served. -/
theorem step_completes {s : State} (hs : s.Inv) (hin : s.inputsPresentable = true) : Completes (step s) := by
  obtain ⟨hcommands, hfragments⟩ := (inputsPresentable_iff s).1 hin
  cases hts : s.turns with
  | nil => exact ⟨s, step_no_turn hts⟩
  | cons a ts =>
    cases a with
    | host =>
      cases hq : s.hostIn with
      | nil => exact ⟨_, step_host_idle hts hq⟩
      | cons c cs =>
        rw [step_host hts hq]
        exact serveCommand_completes ((KeepsSound.pending s ts cs s.fragIn).inv hs) (hcommands c (by simp [hq]))
    | transport =>
      cases hq : s.fragIn with
      | nil => exact ⟨_, step_transport_idle hts hq⟩
      | cons f fs =>
        rw [step_transport hts hq]
        exact serveFragment_completes ((KeepsSound.pending s ts s.hostIn fs).inv hs) (hfragments f (by simp [hq]))
    | environment => exact ⟨_, step_environment hts⟩

/-- A step adds nothing to what is pending. -/
theorem step_pending_subset {s t : State} (h : step s = .next t) : t.hostIn ⊆ s.hostIn ∧ t.fragIn ⊆ s.fragIn := by
  rcases step_next h with ⟨-, rfl⟩ | ⟨ts, -, -, rfl⟩ | ⟨ts, c, cs, -, hin, hc⟩ | ⟨ts, -, -, rfl⟩ |
    ⟨ts, f, fs, -, hin, hf⟩ | ⟨ts, -, rfl⟩
  · exact ⟨List.Subset.refl _, List.Subset.refl _⟩
  · exact ⟨List.Subset.refl _, List.Subset.refl _⟩
  · obtain ⟨-, -, -, hhost, hfrag, -⟩ := serveCommand_served hc
    rw [hhost, hfrag, hin]
    exact ⟨List.subset_cons_self c cs, List.Subset.refl _⟩
  · exact ⟨List.Subset.refl _, List.Subset.refl _⟩
  · obtain ⟨-, -, -, hhost, hfrag, -⟩ := serveFragment_served hf
    rw [hhost, hfrag, hin]
    exact ⟨List.Subset.refl _, List.subset_cons_self f fs⟩
  · exact ⟨List.Subset.refl _, List.Subset.refl _⟩

/-- Preservation: what stays pending is still presentable, as `FRAG_MAX` stays too. -/
theorem step_keeps_inputsPresentable {s t : State} (hin : s.inputsPresentable = true) (h : step s = .next t) :
    t.inputsPresentable = true := by
  obtain ⟨hcommands, hfragments⟩ := (inputsPresentable_iff s).1 hin
  obtain ⟨hhost, hfrag⟩ := step_pending_subset h
  refine (inputsPresentable_iff t).2 ⟨fun c hc => hcommands c (hhost hc), fun f hf => ?_⟩
  rw [(step_keepsSound h).cfg_eq]
  exact hfragments f (hfrag hf)

theorem steps_succ {n : Nat} {s u : State} (h : step s = .next u) : steps (n + 1) s = steps n u := by
  simp only [steps, h]

/-- Settles O23: progress and preservation, by induction on the number of steps. -/
theorem theMachineNeverStops : Obligations.TheMachineNeverStops := by
  intro n
  induction n with
  | zero => exact fun s hs hin => ⟨s, rfl, hs, hin⟩
  | succ n ih =>
    intro s hs hin
    obtain ⟨u, hu⟩ := step_completes hs hin
    rw [steps_succ hu]
    exact ih u ((step_keepsSound hu).inv hs) (step_keeps_inputsPresentable hin hu)

end Sys2Proof.Machine
end

section
/-! PROOFS. Single damaged bytes (40_crc.md R80, R81): the table is linear and the high byte of an entry tells its index,
so a step of the accumulator can be undone from either side, and a difference once made is never lost. -/

namespace Sys2Proof.Machine

/-! ## The table is linear -/

/-- The exclusive-or that a step makes, as a term of its own. -/
theorem tableShift_eq_xor (c : HalfWord) : tableShift c = (c >>> 1) ^^^ (if c.getLsbD 0 then 0xA001 else 0) := by
  rw [tableShift]
  split
  · rfl
  · exact BitVec.xor_zero.symm

theorem tableShift_xor (x y : HalfWord) : tableShift (x ^^^ y) = tableShift x ^^^ tableShift y := by
  have hout (a b : Bool) : (if a ^^ b then (0xA001 : HalfWord) else 0) =
      (if a then 0xA001 else 0) ^^^ (if b then 0xA001 else 0) := by
    revert a b; decide
  rw [tableShift_eq_xor, tableShift_eq_xor x, tableShift_eq_xor y, BitVec.getLsbD_xor, hout,
    BitVec.ushiftRight_xor_distrib]
  ac_rfl

theorem tableShifts_xor (k : Nat) (x y : HalfWord) : tableShifts k (x ^^^ y) = tableShifts k x ^^^ tableShifts k y := by
  induction k generalizing x y with
  | zero => rfl
  | succ k ih => rw [tableShifts, tableShift_xor, ih, tableShifts, tableShifts]

theorem tableEntry_xor (i j : Byte) : tableEntry (i ^^^ j) = tableEntry i ^^^ tableEntry j := by
  rw [tableEntry, BitVec.zeroExtend_eq_setWidth, BitVec.setWidth_xor, tableShifts_xor]
  rfl

/-- Entry 0 is the only one whose high byte is 0. -/
theorem eq_zero_of_tableEntry_high {i : Byte} (h : tableEntry i >>> 8 = 0) : i = 0 := by
  revert i; decide +kernel

/-- The high byte of an entry tells its index. -/
theorem tableEntry_high_injective {i j : Byte} (h : tableEntry i >>> 8 = tableEntry j >>> 8) : i = j := by
  have hzero : tableEntry (i ^^^ j) >>> 8 = 0 := by
    rw [tableEntry_xor, BitVec.ushiftRight_xor_distrib, h]
    exact BitVec.xor_self
  exact BitVec.xor_eq_zero_iff.1 (eq_zero_of_tableEntry_high hzero)

/-! ## A step of the accumulator can be undone -/

theorem crcStep_eq (acc : HalfWord) (b : Byte) : crcStep acc b = (acc >>> 8) ^^^ tableEntry (acc.truncate 8 ^^^ b) := by
  have hindex : ((acc ^^^ b.zeroExtend 16) &&& 0x00FF).truncate 8 = acc.truncate 8 ^^^ b := by
    simp only [BitVec.truncate_eq_setWidth, BitVec.setWidth_and, BitVec.setWidth_xor,
      BitVec.setWidth_setWidth_of_le b (show 8 ≤ 16 by decide), BitVec.setWidth_eq]
    exact BitVec.and_allOnes
  rw [crcStep, hindex]

/-- The high byte of the accumulator is shifted out of the way, so the high byte of the result is the entry's. -/
theorem crcStep_high (acc : HalfWord) (b : Byte) :
    crcStep acc b >>> 8 = tableEntry (acc.truncate 8 ^^^ b) >>> 8 := by
  have hgone : acc >>> 8 >>> 8 = 0#16 := by rw [← BitVec.shiftRight_add, BitVec.ushiftRight_eq_zero (by decide)]
  rw [crcStep_eq, BitVec.ushiftRight_xor_distrib, hgone, BitVec.zero_xor]

theorem crcStep_eq_crcStep_iff {acc acc' : HalfWord} {b b' : Byte} :
    crcStep acc b = crcStep acc' b' ↔
      acc.truncate 8 ^^^ b = acc'.truncate 8 ^^^ b' ∧ acc >>> 8 = acc' >>> 8 := by
  constructor
  · intro h
    have hindex : acc.truncate 8 ^^^ b = acc'.truncate 8 ^^^ b' :=
      tableEntry_high_injective (by rw [← crcStep_high, ← crcStep_high, h])
    rw [crcStep_eq, crcStep_eq, hindex, BitVec.xor_left_inj] at h
    exact ⟨hindex, h⟩
  · rintro ⟨hindex, hhigh⟩
    rw [crcStep_eq, crcStep_eq, hindex, hhigh]

/-- Different bytes leave different accumulators. -/
theorem crcStep_byte_injective (acc : HalfWord) : Function.Injective (crcStep acc) := fun _ _ h =>
  (BitVec.xor_right_inj _).1 (crcStep_eq_crcStep_iff.1 h).1

/-- The same byte keeps different accumulators apart. -/
theorem crcStep_acc_injective (b : Byte) : Function.Injective (crcStep · b) := fun acc acc' h => by
  obtain ⟨hlow, hhigh⟩ := crcStep_eq_crcStep_iff.1 h
  have hlow : acc.truncate 8 = acc'.truncate 8 := (BitVec.xor_left_inj _).1 hlow
  rw [← crcHigh_append_crcLow acc, ← crcHigh_append_crcLow acc', crcHigh_eq_truncate, crcHigh_eq_truncate,
    crcLow_eq_truncate, crcLow_eq_truncate, hlow, hhigh]

/-- So does the same byte string. -/
theorem foldl_crcStep_injective (bs : List Byte) : Function.Injective (bs.foldl crcStep) := by
  induction bs with
  | nil => exact Function.injective_id
  | cons b bs ih => exact ih.comp (crcStep_acc_injective b)

/-- Settles O30: the accumulators agree before the damaged byte, differ after it, and what follows keeps them apart. -/
theorem crcDetectsAnySingleDamagedByte : Obligations.CrcDetectsAnySingleDamagedByte := by
  intro before after b b' hb h
  rw [crc16Arc, crc16Arc, List.foldl_append, List.foldl_append, List.foldl_cons, List.foldl_cons] at h
  exact hb (crcStep_byte_injective _ (foldl_crcStep_injective after h))

end Sys2Proof.Machine
end

section
/-! PROOFS. Two traces: consecutive sequence numbers (42_codec.md R111, R117), and reading a buffer that was armed and
given back empty (20_memory.md R33, 70_reset_and_hazards.md R186). -/

namespace Sys2Proof.Machine

open Sys2Proof.Spec

/-! ## Consecutive sequence numbers -/

/-- One check of the number expected, whatever the policy. -/
theorem exec_bcSeqchk_expected {s : State} {q : Byte} (h0 : s.sysFault = 0) (hq : q = expectedSeq s) :
    exec (.bcSeqchk q) s =
      .next { s with bcLastseq := q, bcBf := false, hostOut := s.hostOut ++ [seqWord 0x4 q q] } := by
  subst hq
  exact (execBcSeqchk_expected h0).trans (respond_seqData ..)

/-- After `n` numbers from 0 on the last one accepted is `n - 1`, so `n` is expected. -/
theorem eq_expectedSeq_of_bcLastseq {n : Nat} {s : State} (h : s.bcLastseq = BitVec.ofNat 8 (n + 255)) :
    BitVec.ofNat 8 n = expectedSeq s := by
  rw [expectedSeq, h, BitVec.ofNat_add, BitVec.add_assoc]
  exact (BitVec.add_zero _).symm

/-- The statement about `n` checks, with the premise that the next one needs: no fault is latched on the way. -/
theorem execAll_bcSeqchk (n : Nat) {s : State} (h0 : s.sysFault = 0) (hlast : s.bcLastseq = 0xFF) :
    ∃ t, execAll ((List.range n).map fun k => .bcSeqchk (BitVec.ofNat 8 k)) s = .next t ∧ t.sysFault = 0 ∧
      t.hostOut = s.hostOut ++ (List.range n).map (fun k => seqWord 0x4 (BitVec.ofNat 8 k) (BitVec.ofNat 8 k)) ∧
      t.bcLastseq = BitVec.ofNat 8 (n + 255) := by
  induction n with
  | zero => exact ⟨s, rfl, h0, (List.append_nil _).symm, hlast⟩
  | succ n ih =>
    obtain ⟨t, ht, h0', hout, hlast'⟩ := ih
    have hnext := exec_bcSeqchk_expected h0' (eq_expectedSeq_of_bcLastseq hlast')
    rw [List.range_succ, List.map_append, execAll_append ht]
    refine ⟨_, execAll_cons hnext [], h0', ?_, ?_⟩
    · rw [hout, List.map_append, List.append_assoc]
      rfl
    · rw [show n + 1 + 255 = n + 256 by omega, BitVec.ofNat_add]
      exact (BitVec.add_zero _).symm

/-- Settles O50: the trace has every number expected in turn. -/
theorem consecutiveSequenceNumbersAreContinuous : Obligations.ConsecutiveSequenceNumbersAreContinuous := by
  intro n s h0 hlast
  obtain ⟨t, ht, -, hout, hlast'⟩ := execAll_bcSeqchk n h0 hlast
  exact ⟨t, ht, hout, hlast'⟩

/-! ## No stale byte -/

theorem exec_raFrag_sentinel {s : State} (h0 : s.sysFault = 0) (hcfg : s.cfg.Legal) :
    exec (.raFrag [0x04]) s = .next
      { s with raColl := false, msg := [(0, 0x04)], raMsglen := 1, fragOut := s.fragOut ++ [fragWord 0x8 1 s.raWoff] } :=
  raFragTakesItsThreeBranches.1 s h0 hcfg

/-- With `RA_WOFF` 0 every offset is unwritten. -/
theorem exec_raRxrd_empty {s : State} (a : Offset) (h0 : s.sysFault = 0) (hcoll : s.raColl = false)
    (hwoff : s.raWoff = 0) :
    exec (.raRxrd a) s = .next { s with sysFault := 6, hostOut := s.hostOut ++ [faultWord 6] } :=
  (execRaRxrd_handedOff h0 hcoll).trans (readCommand_unwritten h0 (hwoff ▸ Nat.zero_le _))

/-- Settles O46: `RA.ARM` sets `RA_WOFF` to 0, the sentinel hands the buffer off as it is, and the read is beyond it. -/
theorem armedBufferGivesNoStaleByte : Obligations.ArmedBufferGivesNoStaleByte := by
  intro s a h0 hcfg
  rw [execAll_cons (exec_raArm_unlatched h0), execAll_cons (exec_raFrag_sentinel (by exact h0) (by exact hcfg)),
    execAll_cons (exec_raRxrd_empty a (by exact h0) rfl rfl)]
  exact ⟨_, rfl, rfl, List.append_assoc ..⟩

end Sys2Proof.Machine
end

section
/-! PROOFS. Where the model stops (log entries 7, 8): packets that no port carries, a write that would leave its space
and a read of a byte that is not held. -/

namespace Sys2Proof.Machine

/-! ## Packets that cannot be presented -/

theorem decodeFragment_too_long {cfg : Config} {f : List Byte} (h : cfg.fragMax < f.length) :
    decodeFragment cfg f = .error .fragmentTooLong := if_neg (by omega)

/-- The word alone decides how long the payload must be, so any other length is no command. -/
theorem decodeCommand_payloadLength {w : Word} {p q : List Byte} {i : Instr} (h : decodeCommand ⟨w, p⟩ = .ok i)
    (hlen : q.length ≠ p.length) : decodeCommand ⟨w, q⟩ = .error .payloadLength := by
  obtain ⟨o, ho, hz, hstray, hp, -⟩ := (decodeCommand_eq_ok_iff ⟨w, p⟩ i).1 h
  have hq : q.length ≠ payloadCount o w := fun hq => hlen (hq.trans hp.symm)
  dsimp only at ho hz hstray
  rw [decodeCommand]
  simp only [ho]
  rw [if_neg (not_not.2 hz), if_neg (Bool.eq_false_iff.1 hstray), if_pos hq]

/-- Settles O10: the decoder names the length, and the port refuses under that name. -/
theorem packetsNoPortCarriesAreRefused : Obligations.PacketsNoPortCarriesAreRefused := by
  refine ⟨fun s f h => ?fragment, fun s i w p q h hlen => ?command⟩
  case fragment => simp only [serveFragment, decode, decodeFragment_too_long h]
  case command => simp [serveCommand, decode, decodeCommand_payloadLength h hlen, DecodeError.isIllegalWord]

/-! ## Accesses outside a space -/

theorem withFill_overflow {sp : Space} {bs : List Byte} {s : State} {body : State → Result}
    (h : capacityOf s sp < bs.length) : withFill sp bs s body = .fault (.outsideSpace sp bs.length) := by
  rw [withFill, withWrite, if_neg (by omega), Nat.zero_add]

theorem withByte_none {sp : Space} {a : Nat} {s : State} {body : Byte → Result}
    (h : Memory.read (spaceOf s sp) a = none) : withByte sp a s body = .fault (.noByte sp a) := by
  simp only [withByte, h]

/-- Settles O11: the message that does not fit `MSG`, and the byte below `RA_MSGLEN` that `MSG` does not hold. -/
theorem accessOutsideASpaceStops : Obligations.AccessOutsideASpaceStops := by
  refine ⟨fun s f h0 hcoll hf hmax => ?write, fun s a h0 ha hnone => ?read⟩
  case write =>
    rw [exec, execRaFrag, guarded_unlatched h0, if_neg (by exact hf), if_neg (by simp [hcoll]), recordMessage,
      withFill_overflow (by exact hmax)]
  case read =>
    rw [exec, execRaMsgrd_unlatched h0, readCommand, if_neg (by omega), withByte_none (by exact hnone)]

end Sys2Proof.Machine
end
